-- ==== Sys2Proof/Config.lean ====
section
/-! DEFINITION. The implementation parameters of 00_scope.md R6, the identification constants of
10_state.md R26 to R28, and the free values the spec leaves open. -/

namespace Sys2Proof.Config

/-- OPW, the width of every operand register in bits: 1024 on this hardware (R6, D3).
It is kept folded, so that facts proved over it do not depend on the number. -/
@[irreducible] def opw : Nat := 1024

/-- OPWW, the 32-bit words of one operand register (R6). -/
def opww : Nat := opw / 32

/-- Bytes one operand register occupies in the window, OPW/8 (10_state.md R21). -/
def regBytes : Nat := opw / 8

/-- NREG, the number of operand registers (R6). -/
def nreg : Nat := 12

/-- The Montgomery radix R = 2^OPW (R6, D9). -/
def radix : Nat := 2 ^ opw

/-- WIN, the size of the register window in bytes (R6). -/
def windowSize : Nat := 0x1000

/-- MAXROUNDS, the largest MR_TEST round count (R6). -/
def maxRounds : Nat := 255

/-- The ID register (10_state.md R26). -/
def idWord : BitVec 32 := 0x4D4F4E54#32

/-- The VERSION register, MAJOR in bits 31:16 and MINOR in bits 15:0 (10_state.md R27). -/
def versionWord : BitVec 32 := 0x0001#16 ++ 0x0000#16

/-- CONFIG.RNG_PRESENT (10_state.md R28). -/
def rngPresent : BitVec 1 := 1#1

/-- The CONFIG register: reserved, RNG_PRESENT, NREG, OPW from bit 31 down (10_state.md R28). -/
def configWord : BitVec 32 :=
  0#7 ++ rngPresent ++ BitVec.ofNat 8 nreg ++ BitVec.ofNat 16 opw

/-- FREE VALUE. Which 4 KiB page of the host bus the window sits at: BASE is OPEN (R6, D2).
Log entry 4. -/
opaque basePage : Nat

/-- BASE, the bus address of the window, a multiple of 0x1000 (R6, D2). -/
def base : Nat := windowSize * basePage

/-- FREE VALUE. The randomness source's raw answer to its k-th draw when the state lists no answer:
RNG is OPEN (R6, D15, 43_miller_rabin.md R142). Log entry 3. -/
opaque freeDraw : Nat → Nat

end Sys2Proof.Config
end

