-- ==== Sys2Proof/Syntax.lean ====
section
/-! DEFINITION. The commands of the block, one constructor for each row of opcode_table.json. -/

namespace Sys2Proof

/-- A command (30_encoding.md R80, R85). Operands are implicit, so a command carries only its ROUNDS
field, bits 15:8 of the word: every word has one, MR_TEST alone reads it (R82). -/
inductive Instr where
  /-- MODMUL, modular product (40_montgomery_multiplier.md R101). -/
  | modmul (rounds : Nat)
  /-- MONTMUL, Montgomery product (40_montgomery_multiplier.md R102). -/
  | montmul (rounds : Nat)
  /-- MONT_TO, conversion into Montgomery form (40_montgomery_multiplier.md R103). -/
  | montTo (rounds : Nat)
  /-- MONT_FROM, conversion out of Montgomery form (40_montgomery_multiplier.md R104). -/
  | montFrom (rounds : Nat)
  /-- MODEXP, modular exponentiation (41_modular_exponentiation.md R120). -/
  | modexp (rounds : Nat)
  /-- MODINV, modular inverse (42_modular_inverse.md R130). -/
  | modinv (rounds : Nat)
  /-- MR_ROUND, one Miller–Rabin round (43_miller_rabin.md R141). -/
  | mrRound (rounds : Nat)
  /-- MR_TEST, Miller–Rabin test with drawn witnesses (43_miller_rabin.md R142). -/
  | mrTest (rounds : Nat)
  /-- EC_CHECK, curve-membership query (44_ecc.md R164). -/
  | ecCheck (rounds : Nat)
  /-- EC_DBL, point doubling (44_ecc.md R165). -/
  | ecDbl (rounds : Nat)
  /-- EC_ADD, addition of two points (44_ecc.md R166). -/
  | ecAdd (rounds : Nat)
  /-- EC_SMUL, scalar multiplication (44_ecc.md R167). -/
  | ecSmul (rounds : Nat)
  deriving DecidableEq, Repr

end Sys2Proof
end

