-- ==== Sys2Proof/WellFormed.lean ====
section
/-! DEFINITION. What a command must satisfy to have an encoding (30_encoding.md R80, R82). -/

namespace Sys2Proof

/-- The command's ROUNDS field. -/
def Instr.rounds : Instr → Nat
  | .modmul r => r
  | .montmul r => r
  | .montTo r => r
  | .montFrom r => r
  | .modexp r => r
  | .modinv r => r
  | .mrRound r => r
  | .mrTest r => r
  | .ecCheck r => r
  | .ecDbl r => r
  | .ecAdd r => r
  | .ecSmul r => r

/-- The one check on a command: ROUNDS is an unsigned 8-bit count, 0 to MAXROUNDS (R82). -/
def Instr.wellFormed (i : Instr) : Bool := decide (i.rounds ≤ Config.maxRounds)

/-- A command that has an encoding. -/
abbrev Instr.WellFormed (i : Instr) : Prop := i.wellFormed = true

end Sys2Proof
end

