-- ==== Sys2Proof/Word.lean ====
section
/-! DEFINITION. The words of the machine (00_scope.md R7, R8): bus words, operand values, offsets. -/

namespace Sys2Proof

/-- One 32-bit bus word: a control register, a command word, a word of an operand register. -/
abbrev Word := BitVec 32

/-- The contents of an operand register, an OPW-bit unsigned value (10_state.md R21). -/
abbrev Operand := BitVec Config.opw

/-- An offset from BASE inside the 4 KiB window (20_memory.md R60, R61). -/
abbrev Offset := BitVec 12

/-- The zero of an operand register. -/
def zeroOperand : Operand := BitVec.ofNatLT 0 (Nat.two_pow_pos Config.opw)

end Sys2Proof
end

