-- ==== Sys2Proof/Decode.lean ====
section
/-! DEFINITION. Decoding a command word, rejecting by name (30_encoding.md R80 to R86), and the encoder
written from the same table (R85). -/

namespace Sys2Proof

/-- Why a command word is illegal (30_encoding.md R81). -/
inductive IllegalWord where
  /-- The OPCODE is not in the table: ILLEGAL_CMD, detail 1. -/
  | undefinedOpcode
  /-- The OPCODE is defined and bits 31:16 are not all 0: ILLEGAL_CMD, detail 2. -/
  | reservedBits
  deriving DecidableEq, Repr

/-- OPCODE, bits 7:0 of the command word (R80). -/
def opcodeField (w : Word) : Nat := (w.extractLsb' 0 8).toNat

/-- ROUNDS, bits 15:8 of the command word, zero-extended (R80, R82). -/
def roundsField (w : Word) : Nat := (w.extractLsb' 8 8).toNat

/-- RSV, bits 31:16 of the command word (R80, R83). -/
def reservedField (w : Word) : Nat := (w.extractLsb' 16 16).toNat

/-- The opcode map (R85): the command an OPCODE selects, none for the undefined ones of R86. -/
def commandOf (opcode rounds : Nat) : Option Instr :=
  match opcode with
  | 0x01 => some (.modmul rounds)
  | 0x02 => some (.montmul rounds)
  | 0x03 => some (.montTo rounds)
  | 0x04 => some (.montFrom rounds)
  | 0x08 => some (.modexp rounds)
  | 0x0C => some (.modinv rounds)
  | 0x10 => some (.mrRound rounds)
  | 0x11 => some (.mrTest rounds)
  | 0x18 => some (.ecCheck rounds)
  | 0x19 => some (.ecDbl rounds)
  | 0x1A => some (.ecAdd rounds)
  | 0x1B => some (.ecSmul rounds)
  | _ => none

/-- Decoding (R81): the first matching line wins, so an undefined OPCODE is reported before reserved
bits that are set. -/
def decode (w : Word) : Except IllegalWord Instr :=
  match commandOf (opcodeField w) (roundsField w) with
  | none => .error .undefinedOpcode
  | some i => if reservedField w = 0 then .ok i else .error .reservedBits

/-- The OPCODE of a command (R85). -/
def Instr.opcode : Instr → Nat
  | .modmul _ => 0x01
  | .montmul _ => 0x02
  | .montTo _ => 0x03
  | .montFrom _ => 0x04
  | .modexp _ => 0x08
  | .modinv _ => 0x0C
  | .mrRound _ => 0x10
  | .mrTest _ => 0x11
  | .ecCheck _ => 0x18
  | .ecDbl _ => 0x19
  | .ecAdd _ => 0x1A
  | .ecSmul _ => 0x1B

/-- The command word of a well-formed command: RSV = 0, ROUNDS, OPCODE from bit 31 down (R80). -/
def encode (i : Instr) : Word :=
  0#16 ++ BitVec.ofNat 8 i.rounds ++ BitVec.ofNat 8 i.opcode

/-- The four bytes of a command word as the window shows them, byte lane 0 first (20_memory.md R65). -/
def wordBytes (w : Word) : List (BitVec 8) :=
  [w.extractLsb' 0 8, w.extractLsb' 8 8, w.extractLsb' 16 8, w.extractLsb' 24 8]

/-- A word put together from its byte lanes, lane 0 the least significant (20_memory.md R65). -/
def wordOfBytes (b0 b1 b2 b3 : BitVec 8) : Word := b3 ++ b2 ++ b1 ++ b0

/-- Decoding the four bytes of CMD, lane 0 first; a list of another length is no command word
(every command is exactly one 32-bit word, R87). -/
def decodeBytes : List (BitVec 8) → Option (Except IllegalWord Instr)
  | [b0, b1, b2, b3] => some (decode (wordOfBytes b0 b1 b2 b3))
  | _ => none

/-- The host's question about one row of the opcode table: the command read from a word whose bits above
nbits are 0; a row longer than one 32-bit word is no command (R87). Log entry 6. -/
def decodeTableWord (nbits w : Nat) : Option Instr :=
  if 32 < nbits then none else
  match decodeBytes (wordBytes (BitVec.ofNat 32 (w % 2 ^ nbits))) with
  | some (.ok i) => some i
  | _ => none

end Sys2Proof
end

