-- ==== Sys2Proof/Machine/State.lean ====
section
/-! DEFINITION. The state of the machine: the record of 10_state.md R44, and the world the block meets
(accesses, draws, the order of moves) as plain data. Reset is 10_state.md R41. -/

namespace Sys2Proof.Machine

/-- The names of the operand register file, in index order (10_state.md R21). -/
inductive Reg where
  | a | b | n | e | ca | cb | px | py | qx | qy | res0 | res1
  deriving DecidableEq, Repr

/-- The operand register file (10_state.md R20, R21). Read and written through `OperandFile.get` and
`OperandFile.set` of Machine/Ops.lean. -/
structure OperandFile where
  a : Operand
  b : Operand
  n : Operand
  e : Operand
  ca : Operand
  cb : Operand
  px : Operand
  py : Operand
  qx : Operand
  qy : Operand
  res0 : Operand
  res1 : Operand
  deriving DecidableEq, Repr

/-- The errors a completion can report, one for each row of 60_exceptions.md R202. Their code and detail
numbers are in Machine/Flags.lean. -/
inductive CmdError where
  /-- NO_INVERSE/1: gcd(A, N) ≠ 1. -/
  | noInverseOperand
  /-- NO_INVERSE/2: a slope denominator shares a factor with N. -/
  | noInverseSlope
  /-- INVALID_POINT/1: P is not on the curve. -/
  | pOffCurve
  /-- INVALID_POINT/2: Q is not on the curve. -/
  | qOffCurve
  /-- INVALID_POINT/3: addition with equal x and different y. -/
  | addOpposite
  /-- INVALID_POINT/4: doubling a point with y = 0. -/
  | doubleZeroY
  /-- INVALID_POINT/5: addition of a point to itself. -/
  | addSame
  /-- OUT_OF_RANGE/1: N fails the command's modulus condition. -/
  | modulusRange
  /-- OUT_OF_RANGE/2: A outside the command's interval. -/
  | aRange
  /-- OUT_OF_RANGE/3: B ≥ N. -/
  | bRange
  /-- OUT_OF_RANGE/4: E < 2. -/
  | eRange
  /-- OUT_OF_RANGE/5: CA ≥ N. -/
  | caRange
  /-- OUT_OF_RANGE/6: CB ≥ N. -/
  | cbRange
  /-- OUT_OF_RANGE/7: PX ≥ N. -/
  | pxRange
  /-- OUT_OF_RANGE/8: PY ≥ N. -/
  | pyRange
  /-- OUT_OF_RANGE/9: QX ≥ N. -/
  | qxRange
  /-- OUT_OF_RANGE/10: QY ≥ N. -/
  | qyRange
  /-- OUT_OF_RANGE/11: CMD.ROUNDS = 0. -/
  | roundsZero
  /-- ILLEGAL_CMD/1: OPCODE not defined. -/
  | undefinedOpcode
  /-- ILLEGAL_CMD/2: CMD[31:16] ≠ 0 with a defined OPCODE. -/
  | reservedBits
  deriving DecidableEq, Repr

/-- What the bus answers to one host access (20_memory.md R64, R66). -/
inductive BusResponse where
  /-- A legal read and its data. -/
  | readOk (data : Word)
  /-- A legal write. -/
  | writeOk
  /-- A refused read: bus error, with the data it returns. -/
  | readError (data : Word)
  /-- A refused write: bus error. -/
  | writeError
  deriving DecidableEq, Repr

/-- One move of one agent (00_scope.md R11): every host access and every completion step is one atomic
event (20_memory.md R73). Widths are in bits (R62). -/
inductive Event where
  /-- A host read of `width` bits at an offset of the window. -/
  | read (off : Offset) (width : Nat)
  /-- A host write of `width` bits at an offset of the window. -/
  | write (off : Offset) (width : Nat) (data : Word)
  /-- The unit's completion step, enabled while BUSY = 1 (70_reset_and_hazards.md R243). -/
  | unit
  /-- The hardware reset input (70_reset_and_hazards.md R230). -/
  | hardwareReset
  deriving DecidableEq, Repr

/-- The randomness port (D15): the answers lined up for it, oldest first, and how many draws were taken.
The MODEL's own field, log entry 3. -/
structure RngPort where
  queue : List Nat
  taken : Nat
  deriving DecidableEq, Repr

/-- The state of the machine. The fields down to `roundsDone` are the record of 10_state.md R44; the
rest are the MODEL's own and hold the world the block meets (log entries 1, 3 and 5). -/
structure State where
  regs : OperandFile
  cmd : Word
  busy : Bool
  done : Bool
  error : Bool
  overrun : Bool
  errCode : BitVec 4
  errDetail : BitVec 4
  doneIe : Bool
  errIe : Bool
  ovrIe : Bool
  roundsDone : BitVec 8
  rng : RngPort
  response : Option BusResponse
  events : List Event
  deriving DecidableEq, Repr

/-- Reasons the machine stops. There are none: the block has no trap (60_exceptions.md R200), a bus error
is a response that changes no state (20_memory.md R64), and every command's outcome is a value or an error
written to STATUS. Nobody raises a fault, which is exact, so safe. Log entry 13. -/
inductive Fault where
  deriving DecidableEq, Repr

/-- Reasons an instruction has no meaning. -/
inductive Refusal where
  /-- Raised by `exec` for a command that has no meaning yet; no arm does. Safe. -/
  | notModelled (mnemonic : String)
  deriving DecidableEq, Repr

/-- Every operand and result register at 0 (10_state.md R41). -/
def OperandFile.zero : OperandFile :=
  { a := zeroOperand, b := zeroOperand, n := zeroOperand, e := zeroOperand, ca := zeroOperand,
    cb := zeroOperand, px := zeroOperand, py := zeroOperand, qx := zeroOperand, qy := zeroOperand,
    res0 := zeroOperand, res1 := zeroOperand }

/-- The machine right after reset (10_state.md R41); the world's fields are empty (log entries 1, 3, 5). -/
def State.reset : State :=
  { regs := OperandFile.zero, cmd := 0, busy := false, done := false, error := false, overrun := false,
    errCode := 0, errDetail := 0, doneIe := false, errIe := false, ovrIe := false, roundsDone := 0,
    rng := { queue := [], taken := 0 }, response := none, events := [] }

end Sys2Proof.Machine
end

