-- ==== Sys2Proof/Machine/Flags.lean ====
section
/-! DEFINITION. The STATUS word and its error codes, IRQ_EN, ROUNDS_DONE as the bus shows them, and the
`irq` output (10_state.md R30, R36, R37; 60_exceptions.md R201, R202, R208). -/

namespace Sys2Proof.Machine

/-- STATUS.ERR_CODE of an error (60_exceptions.md R201): 1 NO_INVERSE, 2 INVALID_POINT, 3 OUT_OF_RANGE,
4 ILLEGAL_CMD. -/
def CmdError.code : CmdError → BitVec 4
  | .noInverseOperand | .noInverseSlope => 1
  | .pOffCurve | .qOffCurve | .addOpposite | .doubleZeroY | .addSame => 2
  | .modulusRange | .aRange | .bRange | .eRange | .caRange | .cbRange | .pxRange | .pyRange
  | .qxRange | .qyRange | .roundsZero => 3
  | .undefinedOpcode | .reservedBits => 4

/-- STATUS.ERR_DETAIL of an error (60_exceptions.md R202). -/
def CmdError.detail : CmdError → BitVec 4
  | .noInverseOperand => 1
  | .noInverseSlope => 2
  | .pOffCurve => 1
  | .qOffCurve => 2
  | .addOpposite => 3
  | .doubleZeroY => 4
  | .addSame => 5
  | .modulusRange => 1
  | .aRange => 2
  | .bRange => 3
  | .eRange => 4
  | .caRange => 5
  | .cbRange => 6
  | .pxRange => 7
  | .pyRange => 8
  | .qxRange => 9
  | .qyRange => 10
  | .roundsZero => 11
  | .undefinedOpcode => 1
  | .reservedBits => 2

/-- The error an illegal command word completes with (30_encoding.md R81). -/
def illegalError : IllegalWord → CmdError
  | .undefinedOpcode => .undefinedOpcode
  | .reservedBits => .reservedBits

/-- One bit of a word. -/
def bit (b : Bool) : BitVec 1 := BitVec.ofBool b

/-- STATUS as a read returns it (10_state.md R30): reserved bits 31:16 and 7:4 read 0. -/
def statusWord (s : State) : Word :=
  0#16 ++ s.errDetail ++ s.errCode ++ 0#4 ++ bit s.overrun ++ bit s.error ++ bit s.done ++ bit s.busy

/-- IRQ_EN as a read returns it (10_state.md R36). -/
def irqEnWord (s : State) : Word :=
  0#29 ++ bit s.ovrIe ++ bit s.errIe ++ bit s.doneIe

/-- ROUNDS_DONE as a read returns it (10_state.md R37). -/
def roundsDoneWord (s : State) : Word := 0#24 ++ s.roundsDone

/-- The `irq` output: level, active high, combinational on the state (60_exceptions.md R208). -/
def irq (s : State) : Bool :=
  (s.done && s.doneIe) || (s.error && s.errIe) || (s.overrun && s.ovrIe)

/-- A write of `w` to STATUS (10_state.md R35): ones clear DONE, ERROR with its codes, OVERRUN.
Clearing ERROR is how the error state is left (60_exceptions.md R206). -/
def clearStatus (w : Word) (s : State) : State :=
  { s with
    done := s.done && !w.getLsbD 1
    error := s.error && !w.getLsbD 2
    errCode := if w.getLsbD 2 then 0 else s.errCode
    errDetail := if w.getLsbD 2 then 0 else s.errDetail
    overrun := s.overrun && !w.getLsbD 3 }

/-- A write of `w` to IRQ_EN stores w[2:0] (10_state.md R36). -/
def setIrqEn (w : Word) (s : State) : State :=
  { s with doneIe := w.getLsbD 0, errIe := w.getLsbD 1, ovrIe := w.getLsbD 2 }

end Sys2Proof.Machine
end

