-- ==== Sys2Proof/Machine/Ops.lean ====
section
/-! DEFINITION. The shared operations: the operand register file, a start, a completion with a value or
with an error, the reset, and the randomness port. -/

namespace Sys2Proof.Machine

/-- Read an operand register (00_scope.md R10 `x[X]`). -/
def OperandFile.get (f : OperandFile) : Reg → Operand
  | .a => f.a
  | .b => f.b
  | .n => f.n
  | .e => f.e
  | .ca => f.ca
  | .cb => f.cb
  | .px => f.px
  | .py => f.py
  | .qx => f.qx
  | .qy => f.qy
  | .res0 => f.res0
  | .res1 => f.res1

/-- Write an operand register (00_scope.md R10 `x[X] <- v`). -/
def OperandFile.set (f : OperandFile) (r : Reg) (v : Operand) : OperandFile :=
  match r with
  | .a => { f with a := v }
  | .b => { f with b := v }
  | .n => { f with n := v }
  | .e => { f with e := v }
  | .ca => { f with ca := v }
  | .cb => { f with cb := v }
  | .px => { f with px := v }
  | .py => { f with py := v }
  | .qx => { f with qx := v }
  | .qy => { f with qy := v }
  | .res0 => { f with res0 := v }
  | .res1 => { f with res1 := v }

/-- The contents of an operand register. -/
def State.reg (s : State) (r : Reg) : Operand := s.regs.get r

/-- The unsigned value of an operand register (00_scope.md R7). -/
def State.val (s : State) (r : Reg) : Nat := (s.reg r).toNat

/-- Replace one operand register. -/
def State.setReg (s : State) (r : Reg) (v : Operand) : State := { s with regs := s.regs.set r v }

/-- The effect of an accepted CMD write: every bit of the word is kept, the unit starts, the old outcome
is cleared and OVERRUN is not (10_state.md R29, D37). -/
def State.start (s : State) (w : Word) : State :=
  { s with
    cmd := w, busy := true, done := false, error := false, errCode := 0, errDetail := 0,
    roundsDone := 0 }

/-- A write ignored because the unit is busy (10_state.md R34). -/
def State.markOverrun (s : State) : State := { s with overrun := true }

/-- The last two lines of every completion step: DONE <- 1, BUSY <- 0 (10_state.md R40). -/
def State.finish (s : State) : State := { s with done := true, busy := false }

/-- Taking an error, the one counterpart of exception entry (60_exceptions.md R205): ERROR with its code
and detail, DONE, and BUSY cleared; nothing else changes. It is left by `clearStatus` (R206). -/
def State.raise (s : State) (err : CmdError) : State :=
  { s with
    error := true, errCode := err.code, errDetail := err.detail, done := true, busy := false }

/-- A completion that returns one value, to RES0 (10_state.md R40). -/
def State.returnOne (s : State) (v : Nat) : State :=
  (s.setReg .res0 (BitVec.ofNat Config.opw v)).finish

/-- A completion that returns a point, to RES0 and RES1 (10_state.md R40). -/
def State.returnPoint (s : State) (p : Nat × Nat) : State :=
  ((s.setReg .res0 (BitVec.ofNat Config.opw p.1)).setReg .res1 (BitVec.ofNat Config.opw p.2)).finish

/-- A completion of MR_TEST: RES0 and ROUNDS_DONE (10_state.md R37, R40; 43_miller_rabin.md R142). -/
def State.returnTest (s : State) (v rounds : Nat) : State :=
  { s.returnOne v with roundsDone := BitVec.ofNat 8 rounds }

/-- A reset, hardware or soft (70_reset_and_hazards.md R231): every field of 10_state.md R41 at its reset
value. The world's fields are not the block's and stay (log entry 7). -/
def State.resetBlock (s : State) : State :=
  { State.reset with rng := s.rng, response := s.response, events := s.events }

/-- The value a raw answer of the randomness source stands for in [lo, hi]: itself where it lies there,
else some value that does (00_scope.md R10 `Draw(lo, hi)`). Log entry 3. -/
def fitDraw (lo hi raw : Nat) : Nat :=
  if lo ≤ raw ∧ raw ≤ hi then raw else lo + raw % (hi - lo + 1)

/-- One draw (00_scope.md R10, 43_miller_rabin.md R142): the next answer lined up, else a free value. -/
def RngPort.draw (p : RngPort) (lo hi : Nat) : Nat × RngPort :=
  match p.queue with
  | raw :: rest => (fitDraw lo hi raw, { queue := rest, taken := p.taken + 1 })
  | [] => (fitDraw lo hi (Config.freeDraw p.taken), { queue := [], taken := p.taken + 1 })

end Sys2Proof.Machine
end

