-- ==== Sys2Proof/Machine/Operands.lean ====
section
/-! DEFINITION. The operand checks of the commands (40_montgomery_multiplier.md R100, 44_ecc.md R160) and
how the window shows an operand register word by word (10_state.md R21, R22). -/

namespace Sys2Proof.Machine

/-- One check of a command: whether it fails, and the error it then raises. -/
abbrev Check := Bool × CmdError

/-- The error of the first failing check; only that one is reported (60_exceptions.md R204). -/
def firstError : List Check → Option CmdError
  | [] => none
  | (fails, err) :: rest => if fails then some err else firstError rest

/-- CheckOddMod of R100: N odd and N ≥ `least`, 3 for the Montgomery datapath, 5 for Miller–Rabin
(43_miller_rabin.md R141). -/
def checkOddMod (s : State) (least : Nat) : Check :=
  (!(decide (s.val .n % 2 = 1) && decide (least ≤ s.val .n)), .modulusRange)

/-- The modulus condition of MODINV: N ≥ 2, of any parity (42_modular_inverse.md R130). -/
def checkModulus (s : State) : Check := (decide (s.val .n < 2), .modulusRange)

/-- CheckBelow of R100: a residue operand must lie below N. -/
def checkBelow (s : State) (r : Reg) (err : CmdError) : Check :=
  (decide (s.val .n ≤ s.val r), err)

/-- The range checks of a curve and its point P: CA, CB, PX, PY (44_ecc.md R160). -/
def curveChecks (s : State) : List Check :=
  [checkBelow s .ca .caRange, checkBelow s .cb .cbRange, checkBelow s .px .pxRange,
    checkBelow s .py .pyRange]

/-- End a command that returns one value: the first failing check, or the value (10_state.md R40). -/
def State.completeOne (s : State) (checks : List Check) (v : Nat) : State :=
  match firstError checks with
  | some err => s.raise err
  | none => s.returnOne v

/-- End a command that returns a point: the first failing check, the error its computation meets, or the
point (10_state.md R40, 60_exceptions.md R204). -/
def State.completePoint (s : State) (checks : List Check) (v : Except CmdError (Nat × Nat)) : State :=
  match firstError checks with
  | some err => s.raise err
  | none =>
    match v with
    | .error err => s.raise err
    | .ok p => s.returnPoint p

/-- The register with a given index (10_state.md R21). -/
def regOfIndex : Nat → Option Reg
  | 0 => some .a
  | 1 => some .b
  | 2 => some .n
  | 3 => some .e
  | 4 => some .ca
  | 5 => some .cb
  | 6 => some .px
  | 7 => some .py
  | 8 => some .qx
  | 9 => some .qy
  | 10 => some .res0
  | 11 => some .res1
  | _ => none

/-- The index of a register (10_state.md R21). -/
def Reg.index : Reg → Nat
  | .a => 0
  | .b => 1
  | .n => 2
  | .e => 3
  | .ca => 4
  | .cb => 5
  | .px => 6
  | .py => 7
  | .qx => 8
  | .qy => 9
  | .res0 => 10
  | .res1 => 11

/-- RES0 and RES1 are read-only to the host; A to QY it may write when the unit is idle
(10_state.md R21, D38). -/
def Reg.hostWritable : Reg → Bool
  | .res0 | .res1 => false
  | _ => true

/-- Word j of an operand value, bits [32j+31:32j] (10_state.md R22). -/
def operandWord (x : Operand) (j : Nat) : Word := x.extractLsb' (32 * j) 32

/-- An operand value with word j replaced and every other bit left alone (10_state.md R22). -/
def setOperandWord (x : Operand) (j : Nat) (v : Word) : Operand :=
  (x &&& ~~~((BitVec.allOnes 32).setWidth Config.opw <<< (32 * j))) |||
    (v.setWidth Config.opw <<< (32 * j))

/-- Byte lane i of a word, bits [8i+7:8i] (20_memory.md R65). -/
def byteLane (w : Word) (i : Nat) : BitVec 8 := w.extractLsb' (8 * i) 8

end Sys2Proof.Machine
end

