-- ==== Sys2Proof/Machine/Bus.lean ====
section
/-! DEFINITION. The register window: its map (10_state.md R21, R25, R39), which accesses are legal, and
what a read returns and a write does (20_memory.md). -/

namespace Sys2Proof.Machine

/-- What stands at an aligned offset of the window (10_state.md R25). -/
inductive WindowReg where
  | id | version | config | cmd | status | irqEn | roundsDone | ctrl | reserved
  /-- Word `j` of an operand register. -/
  | operand (r : Reg) (j : Nat)
  deriving DecidableEq, Repr

/-- The map of the window: control registers below 0x100, then the operand registers of OPW/8 bytes each,
then reserved space (10_state.md R21, R22, R25, R39). -/
def locate (off : Nat) : WindowReg :=
  if 0x100 ≤ off then
    match regOfIndex ((off - 0x100) / Config.regBytes) with
    | some r => .operand r ((off - 0x100) % Config.regBytes / 4)
    | none => .reserved
  else
    match off with
    | 0x000 => .id
    | 0x004 => .version
    | 0x008 => .config
    | 0x010 => .cmd
    | 0x014 => .status
    | 0x018 => .irqEn
    | 0x01C => .roundsDone
    | 0x020 => .ctrl
    | _ => .reserved

/-- The offset of word j of an operand register (10_state.md R22). -/
def operandOffset (r : Reg) (j : Nat) : Offset :=
  BitVec.ofNat 12 (0x100 + r.index * Config.regBytes + 4 * j)

/-- Only a 32-bit access at a multiple of 4 is legal (20_memory.md R62, R63). -/
def legalAccess (off : Offset) (width : Nat) : Bool :=
  decide (width = 32) && decide (off.toNat % 4 = 0)

/-- The value a legal read returns (20_memory.md R66). CTRL and reserved space read 0 (10_state.md R38,
R39); an operand register can be read whether or not the unit is busy. -/
def readReg (s : State) : WindowReg → Word
  | .id => Config.idWord
  | .version => Config.versionWord
  | .config => Config.configWord
  | .cmd => s.cmd
  | .status => statusWord s
  | .irqEn => irqEnWord s
  | .roundsDone => roundsDoneWord s
  | .ctrl => 0
  | .reserved => 0
  | .operand r j => operandWord (s.reg r) j

/-- The effect of a legal write (20_memory.md R67). -/
def writeReg (v : Word) (s : State) : WindowReg → State
  | .id => s
  | .version => s
  | .config => s
  | .cmd => if s.busy then s.markOverrun else s.start v
  | .status => clearStatus v s
  | .irqEn => setIrqEn v s
  | .roundsDone => s
  | .ctrl => if v.getLsbD 0 then s.resetBlock else s
  | .reserved => s
  | .operand r j =>
    if r.hostWritable then
      if s.busy then s.markOverrun else s.setReg r (setOperandWord (s.reg r) j v)
    else s

/-- The word at an aligned offset of the window. -/
def readWord (s : State) (off : Offset) : Word := readReg s (locate off.toNat)

/-- The byte at any offset of the window, lane off[1:0] of its word (20_memory.md R65). -/
def readByte (s : State) (off : Offset) : BitVec 8 :=
  byteLane (readReg s (locate (off.toNat / 4 * 4))) (off.toNat % 4)

/-- A host read (20_memory.md R62 to R66): it changes no state of the block; an illegal one gets a bus
error and data 0. -/
def busRead (off : Offset) (width : Nat) (s : State) : State :=
  { s with
    response :=
      some (if legalAccess off width then .readOk (readWord s off) else .readError 0) }

/-- A host write (20_memory.md R62 to R64, R67): an illegal one gets a bus error and has no effect. -/
def busWrite (off : Offset) (width : Nat) (v : Word) (s : State) : State :=
  if legalAccess off width then
    { writeReg v s (locate off.toNat) with response := some .writeOk }
  else { s with response := some .writeError }

/-- Address decode (20_memory.md R61): the offset a bus address is in the window, none for an address the
platform routes elsewhere. -/
def routeAddress (addr : Nat) : Option Offset :=
  if Config.base ≤ addr ∧ addr ≤ Config.base + 0xFFF then
    some (BitVec.ofNat 12 (addr - Config.base))
  else none

end Sys2Proof.Machine
end

