-- ==== Sys2Proof/Machine/Arith.lean ====
section
/-! DEFINITION. The exact arithmetic of 00_scope.md R9, in forms that can be evaluated: modular
reduction, powers, the modular inverse. Only values are normative, never the schedule (log entry 10). -/

namespace Sys2Proof.Machine

/-- `x mod N` of R9 for an integer x, which may be negative: the r in [0, N) with N dividing x − r. -/
def modInt (x : Int) (n : Nat) : Nat := (x % (n : Int)).toNat

/-- `b ^ e mod n` by repeated squaring over at most `bits` bits of e (R9 `x^e`, x^0 = 1). -/
def powModBits : Nat → Nat → Nat → Nat → Nat
  | 0, _, _, n => 1 % n
  | bits + 1, b, e, n =>
    if e = 0 then 1 % n
    else if e % 2 = 1 then b * powModBits bits (b * b % n) (e / 2) n % n
    else powModBits bits (b * b % n) (e / 2) n

/-- The Euclidean algorithm of 42_modular_inverse.md R130, with the cofactor of the second argument:
(r0, r1, s0, s1) until r1 = 0, answering (r0, s0). The first argument bounds the rounds. -/
def euclid : Nat → Nat → Nat → Int → Int → Nat × Int
  | 0, r0, _, s0, _ => (r0, s0)
  | fuel + 1, r0, r1, s0, s1 =>
    if r1 = 0 then (r0, s0) else euclid fuel r1 (r0 % r1) s1 (s0 - (r0 / r1 : Nat) * s1)

/-- `inv(a, n)` of R9: for gcd(a, n) = 1 the b in [0, n) with a·b mod n = 1 mod n (R130). -/
def invMod (a n : Nat) : Nat := modInt (euclid (a + 1) n a 0 1).2 n

/-- The (k, q) with m = 2^k · q and q odd, for a nonzero m below 2^fuel (43_miller_rabin.md R140). -/
def splitTwos : Nat → Nat → Nat × Nat
  | 0, m => (0, m)
  | fuel + 1, m =>
    if m % 2 = 0 then
      let r := splitTwos fuel (m / 2)
      (r.1 + 1, r.2)
    else (0, m)

end Sys2Proof.Machine
end

