-- ==== Sys2Proof/Machine/ModExp.lean ====
section
/-! DEFINITION. The modular exponentiation engine: MODEXP (41_modular_exponentiation.md). -/

namespace Sys2Proof.Machine

/-- `b ^ e mod n` for an exponent held in an operand register (41_modular_exponentiation.md R120). -/
def powMod (b e n : Nat) : Nat := powModBits Config.opw (b % n) e n

/-- MODEXP (R120): A^E mod N, with 0^0 = 1; every E is legal. -/
def execModexp (s : State) : Host.Outcome State Fault Refusal :=
  .next (s.completeOne [checkOddMod s 3, checkBelow s .a .aRange]
    (powMod (s.val .a) (s.val .e) (s.val .n)))

end Sys2Proof.Machine
end

