-- ==== Sys2Proof/Machine/MillerRabin.lean ====
section
/-! DEFINITION. The Miller–Rabin test unit: MR_ROUND, MR_TEST (43_miller_rabin.md). -/

namespace Sys2Proof.Machine

/-- The squaring loop of the round predicate (R140): up to `count` squarings of y, PASS on n − 1. -/
def mrSquares (n : Nat) : Nat → Nat → Bool
  | 0, _ => false
  | count + 1, y => if y * y % n = n - 1 then true else mrSquares n count (y * y % n)

/-- MRRound(n, a) = PASS (R140). -/
def mrPass (n a : Nat) : Bool :=
  let kq := splitTwos Config.opw (n - 1)
  let y := powMod a kq.2 n
  decide (y = 1) || decide (y = n - 1) || mrSquares n (kq.1 - 1) y

/-- The integer a Boolean result is written as (10_state.md R42). -/
def boolValue (b : Bool) : Nat := if b then 1 else 0

/-- MR_ROUND (R141): one round with the witness in A. -/
def execMrRound (s : State) : Host.Outcome State Fault Refusal :=
  .next (s.completeOne
    [checkOddMod s 5,
      (!(decide (2 ≤ s.val .a) && decide (s.val .a ≤ s.val .n - 2)), .aRange)]
    (boolValue (mrPass (s.val .n) (s.val .a))))

/-- The rounds of MR_TEST (R142), `left` still to run after `run` passed ones: the verdict, the number of
rounds run, and the randomness port afterwards. It stops at the first COMPOSITE round (D14). -/
def mrRounds (n : Nat) : Nat → Nat → RngPort → Bool × Nat × RngPort
  | 0, run, port => (true, run, port)
  | left + 1, run, port =>
    if mrPass n (port.draw 2 (n - 2)).1 then mrRounds n left (run + 1) (port.draw 2 (n - 2)).2
    else (false, run + 1, (port.draw 2 (n - 2)).2)

/-- MR_TEST (R142): `rounds` rounds with drawn witnesses; no draw is taken before both checks pass. -/
def execMrTest (rounds : Nat) (s : State) : Host.Outcome State Fault Refusal :=
  match firstError [checkOddMod s 5, (decide (rounds = 0), .roundsZero)] with
  | some err => .next (s.raise err)
  | none =>
    let r := mrRounds (s.val .n) rounds 0 s.rng
    .next { s.returnTest (boolValue r.1) r.2.1 with rng := r.2.2 }

end Sys2Proof.Machine
end

