-- ==== Sys2Proof/Machine/Ecc.lean ====
section
/-! DEFINITION. The elliptic-curve units: EC_CHECK, EC_DBL, EC_ADD, EC_SMUL (44_ecc.md). The curve is
y² = x³ + CA·x + CB modulo N; no point at infinity exists (R168). The laws of R169 give no value of their own:
they are proved of the cores below in Laws/Ecc.lean and Laws/EccGroup.lean. -/

namespace Sys2Proof.Machine

/-- OnCurve(x, y) (R161): exact integers before the reduction. -/
def onCurve (n a b x y : Nat) : Bool :=
  decide (((y : Int) ^ 2 - ((x : Int) ^ 3 + a * x + b)) % (n : Int) = 0)

/-- The doubling core (R162). -/
def dblCore (n a : Nat) (p : Nat × Nat) : Except CmdError (Nat × Nat) :=
  let d := 2 * p.2 % n
  if p.2 = 0 then .error .doubleZeroY
  else if Nat.gcd d n ≠ 1 then .error .noInverseSlope
  else
    let slope := modInt ((3 * (p.1 : Int) ^ 2 + a) * invMod d n) n
    let xr := modInt ((slope : Int) ^ 2 - 2 * p.1) n
    let yr := modInt ((slope : Int) * ((p.1 : Int) - xr) - p.2) n
    .ok (xr, yr)

/-- The addition core (R163). -/
def addCore (n : Nat) (p q : Nat × Nat) : Except CmdError (Nat × Nat) :=
  let d := modInt ((q.1 : Int) - p.1) n
  if p.1 = q.1 then (if p.2 ≠ q.2 then .error .addOpposite else .error .addSame)
  else if Nat.gcd d n ≠ 1 then .error .noInverseSlope
  else
    let slope := modInt (((q.2 : Int) - p.2) * invMod d n) n
    let xr := modInt ((slope : Int) ^ 2 - p.1 - q.1) n
    let yr := modInt (-(p.2 : Int) + (slope : Int) * ((p.1 : Int) - xr)) n
    .ok (xr, yr)

/-- The loop of EC_SMUL (R167): for bits i − 1 down to 0 of e, double t, and add p where the bit is 1.
An error of a core call ends it. -/
def smulLoop (n a e : Nat) (p : Nat × Nat) : Nat → Nat × Nat → Except CmdError (Nat × Nat)
  | 0, t => .ok t
  | i + 1, t =>
    match dblCore n a t with
    | .error err => .error err
    | .ok t2 =>
      if e.testBit i then
        match addCore n t2 p with
        | .error err => .error err
        | .ok t3 => smulLoop n a e p i t3
      else smulLoop n a e p i t2

/-- E·P by left-to-right double-and-add (R167): L = log2 e + 1 bits, starting below the leading one. -/
def smulCore (n a e : Nat) (p : Nat × Nat) : Except CmdError (Nat × Nat) :=
  smulLoop n a e p (Nat.log2 e) p

/-- The point P, (PX, PY). -/
def State.pointP (s : State) : Nat × Nat := (s.val .px, s.val .py)

/-- The point Q, (QX, QY). -/
def State.pointQ (s : State) : Nat × Nat := (s.val .qx, s.val .qy)

/-- Whether a point is on the curve the registers give (R161). -/
def State.onCurve (s : State) (p : Nat × Nat) : Bool :=
  Machine.onCurve (s.val .n) (s.val .ca) (s.val .cb) p.1 p.2

/-- P must be on the curve (R160). -/
def checkP (s : State) : Check := (!s.onCurve s.pointP, .pOffCurve)

/-- Q must be on the curve (R160). -/
def checkQ (s : State) : Check := (!s.onCurve s.pointQ, .qOffCurve)

/-- EC_CHECK (R164): membership as a result, never an error. -/
def execEcCheck (s : State) : Host.Outcome State Fault Refusal :=
  .next (s.completeOne (checkOddMod s 3 :: curveChecks s) (boolValue (s.onCurve s.pointP)))

/-- EC_DBL (R165): 2·P. -/
def execEcDbl (s : State) : Host.Outcome State Fault Refusal :=
  .next (s.completePoint (checkOddMod s 3 :: curveChecks s ++ [checkP s])
    (dblCore (s.val .n) (s.val .ca) s.pointP))

/-- EC_ADD (R166): P + Q. -/
def execEcAdd (s : State) : Host.Outcome State Fault Refusal :=
  .next (s.completePoint
    (checkOddMod s 3 :: curveChecks s ++
      [checkBelow s .qx .qxRange, checkBelow s .qy .qyRange, checkP s, checkQ s])
    (addCore (s.val .n) s.pointP s.pointQ))

/-- EC_SMUL (R167): E·P for E ≥ 2. -/
def execEcSmul (s : State) : Host.Outcome State Fault Refusal :=
  .next (s.completePoint
    (checkOddMod s 3 :: (decide (s.val .e < 2), .eRange) :: curveChecks s ++ [checkP s])
    (smulCore (s.val .n) (s.val .ca) (s.val .e) s.pointP))

end Sys2Proof.Machine
end

