-- ==== Sys2Proof/Machine/ModInv.lean ====
section
/-! DEFINITION. The modular inverse unit: MODINV (42_modular_inverse.md). -/

namespace Sys2Proof.Machine

/-- MODINV (R130): inv(A, N) for N ≥ 2 of any parity, or NO_INVERSE/1. -/
def execModinv (s : State) : Host.Outcome State Fault Refusal :=
  .next (s.completeOne
    [checkModulus s, checkBelow s .a .aRange,
      (decide (Nat.gcd (s.val .a) (s.val .n) ≠ 1), .noInverseOperand)]
    (invMod (s.val .a) (s.val .n)))

end Sys2Proof.Machine
end

