-- ==== Sys2Proof/Machine/Montgomery.lean ====
section
/-! DEFINITION. The Montgomery multiplier unit: MODMUL, MONTMUL, MONT_TO, MONT_FROM
(40_montgomery_multiplier.md). -/

namespace Sys2Proof.Machine

/-- Rinv of 40_montgomery_multiplier.md R100: inv(R mod N, N). -/
def radixInv (n : Nat) : Nat := invMod (Config.radix % n) n

/-- MODMUL (R101): A·B mod N. -/
def execModmul (s : State) : Host.Outcome State Fault Refusal :=
  .next (s.completeOne [checkOddMod s 3, checkBelow s .a .aRange, checkBelow s .b .bRange]
    (s.val .a * s.val .b % s.val .n))

/-- MONTMUL (R102): A·B·Rinv mod N. -/
def execMontmul (s : State) : Host.Outcome State Fault Refusal :=
  .next (s.completeOne [checkOddMod s 3, checkBelow s .a .aRange, checkBelow s .b .bRange]
    (s.val .a * s.val .b * radixInv (s.val .n) % s.val .n))

/-- MONT_TO (R103): A·R mod N. -/
def execMontTo (s : State) : Host.Outcome State Fault Refusal :=
  .next (s.completeOne [checkOddMod s 3, checkBelow s .a .aRange]
    (s.val .a * Config.radix % s.val .n))

/-- MONT_FROM (R104): A·Rinv mod N. -/
def execMontFrom (s : State) : Host.Outcome State Fault Refusal :=
  .next (s.completeOne [checkOddMod s 3, checkBelow s .a .aRange]
    (s.val .a * radixInv (s.val .n) % s.val .n))

end Sys2Proof.Machine
end

