-- ==== Sys2Proof/Machine/Dispatch.lean ====
section
/-! DEFINITION. The meaning of each command at its completion step (30_encoding.md R81, R85). ROUNDS is
passed to MR_TEST only (R82). -/

namespace Sys2Proof.Machine

def exec (i : Instr) (s : State) : Host.Outcome State Fault Refusal :=
  match i with
  | .modmul _ => Sys2Proof.Machine.execModmul s
  | .montmul _ => Sys2Proof.Machine.execMontmul s
  | .montTo _ => Sys2Proof.Machine.execMontTo s
  | .montFrom _ => Sys2Proof.Machine.execMontFrom s
  | .modexp _ => Sys2Proof.Machine.execModexp s
  | .modinv _ => Sys2Proof.Machine.execModinv s
  | .mrRound _ => Sys2Proof.Machine.execMrRound s
  | .mrTest rounds => Sys2Proof.Machine.execMrTest rounds s
  | .ecCheck _ => Sys2Proof.Machine.execEcCheck s
  | .ecDbl _ => Sys2Proof.Machine.execEcDbl s
  | .ecAdd _ => Sys2Proof.Machine.execEcAdd s
  | .ecSmul _ => Sys2Proof.Machine.execEcSmul s

end Sys2Proof.Machine
end

