-- ==== Sys2Proof/Machine/Events.lean ====
section
/-! DEFINITION. One move of one agent: a host access, the unit's completion step, the hardware reset
(00_scope.md R11, 20_memory.md R73). -/

namespace Sys2Proof.Machine

/-- The unit's move (10_state.md R40): while BUSY = 1 it decodes CMD and performs the command, or completes
with ILLEGAL_CMD (30_encoding.md R81); while idle it has no step to take (log entry 2). -/
def unitStep (s : State) : Host.Outcome State Fault Refusal :=
  if s.busy then
    match decode s.cmd with
    | .ok i => exec i s
    | .error why => .next (s.raise (illegalError why))
  else .next s

/-- The effect of one move. -/
def stepEvent (ev : Event) (s : State) : Host.Outcome State Fault Refusal :=
  match ev with
  | .read off width => .next (busRead off width s)
  | .write off width data => .next (busWrite off width data s)
  | .unit => unitStep s
  | .hardwareReset => .next s.resetBlock

/-- The moves of a list, one after another, until one stops the machine. -/
def runEvents : List Event → State → Host.Outcome State Fault Refusal
  | [], s => .next s
  | ev :: rest, s =>
    match stepEvent ev s with
    | .next s' => runEvents rest s'
    | .fault r => .fault r
    | .refused r => .refused r

/-- A host write of `width` bits to a bus address, put at the end of the moves to come: the platform
delivers an access inside the window and routes any other elsewhere, where the block never sees it
(20_memory.md R61, R72). Log entry 4. -/
def State.hostWritesAt (addr width : Nat) (v : Word) (s : State) : State :=
  match routeAddress addr with
  | some off => { s with events := s.events ++ [.write off width v] }
  | none => s

/-- A host read of `width` bits from a bus address, likewise. -/
def State.hostReadsAt (addr width : Nat) (s : State) : State :=
  match routeAddress addr with
  | some off => { s with events := s.events ++ [.read off width] }
  | none => s

end Sys2Proof.Machine
end

