-- ==== Sys2Proof/Machine/Step.lean ====
section
/-! DEFINITION. One step of the machine: the next move of the list, or the unit's where none is left. -/

namespace Sys2Proof.Machine

/-- One step. The list `events` says who moves; with nothing listed the unit moves, so that a started
command completes (the fairness of 70_reset_and_hazards.md R243). Log entry 1. -/
def step (s : State) : Host.Outcome State Fault Refusal :=
  match s.events with
  | [] => stepEvent .unit s
  | ev :: rest => stepEvent ev { s with events := rest }

/-- The state with a command word in the block's one instruction slot (10_state.md R24), as an accepted CMD
write leaves it (R29), and the unit to move next. Log entry 6. -/
def State.withFetchWord (s : State) (nbits w : Nat) : State :=
  { s.start (BitVec.ofNat 32 (w % 2 ^ nbits)) with events := .unit :: s.events }

end Sys2Proof.Machine
end

