-- ==== Sys2Proof/Machine/HostProgram.lean ====
section
/-! DEFINITION. The host notation of 30_encoding.md R88 and R89 as a layer over the machine: statements of a
host program, its branches and variables, and the expansions of the pseudo-instructions. The host's own
processor is outside the block, so none of this is in State (log entry 14). How its host sees a bus error is the model's
choice for the open parameter BUS_ERROR (log entry 17). -/

namespace Sys2Proof.Machine

/-- A host variable, by number. It holds an OPW-bit value; `rd32` fills the low 32 bits of it. -/
abbrev HostVar := Nat

/-- A value a host program writes: a number it holds literally, or a variable. -/
inductive HostValue where
  | lit (v : Operand)
  | var (x : HostVar)
  deriving DecidableEq, Repr

/-- A statement of a host program (R88). A label is the index of the statement it stands before. -/
inductive HostStmt where
  /-- `wr32 OFF, VAL[32j+31:32j]`. -/
  | wr32 (off : Offset) (val : HostValue) (j : Nat)
  /-- `rd32 OFF -> x`. -/
  | rd32 (off : Offset) (x : HostVar)
  /-- `rd32 OFF -> w_j`, word j of x, as `rdop` expands to (R89). -/
  | rdWord (off : Offset) (x : HostVar) (j : Nat)
  /-- `bnz x, MASK, label`. -/
  | bnz (x : HostVar) (mask : Word) (target : Nat)
  /-- `bz x, MASK, label`. -/
  | bz (x : HostVar) (mask : Word) (target : Nat)
  /-- `halt`. -/
  | halt
  deriving DecidableEq, Repr

/-- The block with one host program running against it. -/
structure Hosted where
  prog : List HostStmt
  pc : Nat
  vars : List (HostVar × Operand)
  halted : Bool
  dev : State
  deriving DecidableEq, Repr

/-- Which agent moves (00_scope.md R11). -/
inductive Agent where
  | host | unit | hardwareReset
  deriving DecidableEq, Repr

/-- The value of a host variable; one never assigned reads 0 (log entry 14). -/
def Hosted.getVar (h : Hosted) (x : HostVar) : Operand := (h.vars.lookup x).getD zeroOperand

/-- Assign a host variable. -/
def Hosted.setVar (h : Hosted) (x : HostVar) (v : Operand) : Hosted :=
  { h with vars := (x, v) :: h.vars.filter (fun e => e.1 ≠ x) }

/-- The value a statement writes. -/
def Hosted.value (h : Hosted) : HostValue → Operand
  | .lit v => v
  | .var x => h.getVar x

/-- The data of a bus response; a refused read returns 0 (20_memory.md R64). That the host takes this 0 as the
value of its read is a DESIGN CHOICE, log entry 17. -/
def responseData : Option BusResponse → Word
  | some (.readOk d) => d
  | some (.readError d) => d
  | _ => 0

/-- Whether `v AND MASK` is 0 (R88); the mask has 32 bits. -/
def maskedZero (v : Operand) (mask : Word) : Bool := operandWord v 0 &&& mask == 0

/-- The host performs the statement at its location (R88); past the last one it has halted (log entry 14).
DESIGN CHOICE, log entry 17: how the host sees a bus error is OPEN (BUS_ERROR, 00_scope.md R6, 20_memory.md R64),
and here it sees none. After a refused `wr32` or `rd32` it goes on at the next statement with no exception and no
flag, and a refused read assigns 0. -/
def Hosted.hostStep (h : Hosted) : Hosted :=
  if h.halted then h else
  match h.prog[h.pc]? with
  | none => { h with halted := true }
  | some (.wr32 off val j) =>
    { h with dev := busWrite off 32 (operandWord (h.value val) j) h.dev, pc := h.pc + 1 }
  | some (.rd32 off x) =>
    let dev := busRead off 32 h.dev
    { h.setVar x ((responseData dev.response).setWidth Config.opw) with dev := dev, pc := h.pc + 1 }
  | some (.rdWord off x j) =>
    let dev := busRead off 32 h.dev
    { h.setVar x (setOperandWord (h.getVar x) j (responseData dev.response)) with
      dev := dev, pc := h.pc + 1 }
  | some (.bnz x mask target) =>
    { h with pc := if maskedZero (h.getVar x) mask then h.pc + 1 else target }
  | some (.bz x mask target) =>
    { h with pc := if maskedZero (h.getVar x) mask then target else h.pc + 1 }
  | some .halt => { h with halted := true }

/-- One move of one agent, the block and its host together. -/
def Hosted.step (who : Agent) (h : Hosted) : Host.Outcome Hosted Fault Refusal :=
  match who with
  | .host => .next h.hostStep
  | .hardwareReset => .next { h with dev := h.dev.resetBlock }
  | .unit =>
    match unitStep h.dev with
    | .next dev => .next { h with dev := dev }
    | .fault r => .fault r
    | .refused r => .refused r

/-- The offset of CMD (10_state.md R25). -/
def cmdOffset : Offset := 0x010#12

/-- The offset of STATUS (10_state.md R25). -/
def statusOffset : Offset := 0x014#12

/-- The offset of CTRL (10_state.md R25). -/
def ctrlOffset : Offset := 0x020#12

/-- `ldop X, VAL`: OPWW writes, word 0 first (R89). -/
def ldop (r : Reg) (val : HostValue) : List HostStmt :=
  (List.range Config.opww).map fun j => .wr32 (operandOffset r j) val j

/-- `rdop X -> x`: OPWW reads, word 0 first (R89). -/
def rdop (r : Reg) (x : HostVar) : List HostStmt :=
  (List.range Config.opww).map fun j => .rdWord (operandOffset r j) x j

/-- A statement that writes one literal word. -/
def wr32Lit (off : Offset) (w : Word) : HostStmt := .wr32 off (.lit (w.setWidth Config.opw)) 0

/-- `go MNEM` (R89). -/
def go (i : Instr) : HostStmt := wr32Lit cmdOffset (encode i)

/-- `wait`, standing at location `at_`: poll STATUS until BUSY = 0 (R89). -/
def wait (x : HostVar) (at_ : Nat) : List HostStmt := [.rd32 statusOffset x, .bnz x 0x1 at_]

/-- `clr`: clear DONE, ERROR with its codes, and OVERRUN (R89). -/
def clr : HostStmt := wr32Lit statusOffset 0xE#32

/-- `srst`: a soft reset (R89). -/
def srst : HostStmt := wr32Lit ctrlOffset 0x1#32

/-- The bus writes `ldop X, v` performs, as moves of the machine (R89). -/
def loadEvents (r : Reg) (v : Operand) : List Event :=
  (List.range Config.opww).map fun j => .write (operandOffset r j) 32 (operandWord v j)

end Sys2Proof.Machine
end

