-- ==== Sys2Proof/Safety.lean ====
section
/-! DEFINITION. What holds of the block in every state a run reaches, in the terms the claims use. -/

namespace Sys2Proof.Machine

/-- The relations between STATUS, CMD and ROUNDS_DONE that the spec gives the block
(10_state.md R29, R32, R33, R37; 43_miller_rabin.md R142; 60_exceptions.md R201, R202, R205). -/
structure StatusInv (s : State) : Prop where
  /-- While BUSY = 1 the old outcome is cleared (R29, R32, R37). -/
  busy_clear : s.busy = true → s.done = false ∧ s.error = false ∧ s.roundsDone = 0
  /-- ERR_CODE ≠ 0 exactly when ERROR = 1 (R33). -/
  error_code : s.error = true ↔ s.errCode ≠ 0
  /-- With ERROR = 0 the detail is 0 too (R33). -/
  no_detail : s.error = false → s.errDetail = 0
  /-- With ERROR = 1 the two codes are a row of the table of R202. -/
  error_row : s.error = true → ∃ err : CmdError, s.errCode = err.code ∧ s.errDetail = err.detail
  /-- ROUNDS_DONE never exceeds the ROUNDS field of CMD (R142). -/
  rounds_le : s.roundsDone.toNat ≤ roundsField s.cmd
  /-- ROUNDS_DONE ≠ 0 only after an MR_TEST (R37). -/
  rounds_test : s.roundsDone ≠ 0 → opcodeField s.cmd = 0x11
  /-- A failed completion leaves ROUNDS_DONE at 0 (R37, R205). -/
  failed_rounds : s.error = true → s.roundsDone = 0

/-- The operand registers a command reads (10_state.md R23). -/
def readsOf : Instr → List Reg
  | .modmul _ => [.n, .a, .b]
  | .montmul _ => [.n, .a, .b]
  | .montTo _ => [.n, .a]
  | .montFrom _ => [.n, .a]
  | .modexp _ => [.n, .a, .e]
  | .modinv _ => [.n, .a]
  | .mrRound _ => [.n, .a]
  | .mrTest _ => [.n]
  | .ecCheck _ => [.n, .ca, .cb, .px, .py]
  | .ecDbl _ => [.n, .ca, .cb, .px, .py]
  | .ecAdd _ => [.n, .ca, .cb, .px, .py, .qx, .qy]
  | .ecSmul _ => [.n, .ca, .cb, .e, .px, .py]

/-- The operand registers a successful command writes (10_state.md R23). -/
def writesOf : Instr → List Reg
  | .modmul _ => [.res0]
  | .montmul _ => [.res0]
  | .montTo _ => [.res0]
  | .montFrom _ => [.res0]
  | .modexp _ => [.res0]
  | .modinv _ => [.res0]
  | .mrRound _ => [.res0]
  | .mrTest _ => [.res0]
  | .ecCheck _ => [.res0]
  | .ecDbl _ => [.res0, .res1]
  | .ecAdd _ => [.res0, .res1]
  | .ecSmul _ => [.res0, .res1]

/-- The errors a command's own rule can raise, besides ILLEGAL_CMD (60_exceptions.md R203). -/
def errorsOf : Instr → List CmdError
  | .modmul _ => [.modulusRange, .aRange, .bRange]
  | .montmul _ => [.modulusRange, .aRange, .bRange]
  | .montTo _ => [.modulusRange, .aRange]
  | .montFrom _ => [.modulusRange, .aRange]
  | .modexp _ => [.modulusRange, .aRange]
  | .modinv _ => [.modulusRange, .aRange, .noInverseOperand]
  | .mrRound _ => [.modulusRange, .aRange]
  | .mrTest _ => [.modulusRange, .roundsZero]
  | .ecCheck _ => [.modulusRange, .caRange, .cbRange, .pxRange, .pyRange]
  | .ecDbl _ => [.modulusRange, .caRange, .cbRange, .pxRange, .pyRange, .pOffCurve, .doubleZeroY,
      .noInverseSlope]
  | .ecAdd _ => [.modulusRange, .caRange, .cbRange, .pxRange, .pyRange, .qxRange, .qyRange, .pOffCurve,
      .qOffCurve, .addOpposite, .addSame, .noInverseSlope]
  | .ecSmul _ => [.modulusRange, .eRange, .caRange, .cbRange, .pxRange, .pyRange, .pOffCurve,
      .addOpposite, .doubleZeroY, .addSame, .noInverseSlope]

/-- The curves the laws of 44_ecc.md R169 speak of: N an odd prime, CA and CB below N, and
4·CA³ + 27·CB² ≢ 0 (mod N). Its affine points with an identity form a group, which the spec marks as general
knowledge. -/
def EllipticDomain (s : State) : Prop :=
  (s.val .n).Prime ∧ s.val .n % 2 = 1 ∧ s.val .ca < s.val .n ∧ s.val .cb < s.val .n ∧
    (4 * s.val .ca ^ 3 + 27 * s.val .cb ^ 2) % s.val .n ≠ 0

/-- A step that neither faults nor refuses. -/
def Continues (s : State) : Prop := ∃ s', step s = .next s'

/-- A run of any length that neither faults nor refuses. -/
def SafeRun : Nat → State → Prop
  | 0, _ => True
  | k + 1, s => ∃ s', step s = .next s' ∧ SafeRun k s'

end Sys2Proof.Machine
end

