-- ==== Sys2Proof/Certificates/Slice0/Obligations.lean ====
section
/-! DEFINITION. The statements for the provers. Each docstring names the rule of spec/ it formalises.
`Sys2Proof.Claims` holds the words the statements are written in: the states a completion leaves, the numeric
tables of the spec, and the formulas of its rules. None goes through the machine's own algorithms but
`doubleAndAdd`, whose two core calls a statement of their own ties to the formulas. -/

namespace Sys2Proof.Claims

open Sys2Proof.Machine

/-- The twelve defined opcodes (30_encoding.md R81). -/
def definedOpcodes : List Nat :=
  [0x01, 0x02, 0x03, 0x04, 0x08, 0x0C, 0x10, 0x11, 0x18, 0x19, 0x1A, 0x1B]

/-- The register file in index order (10_state.md R21). -/
def fileOrder : List Reg := [.a, .b, .n, .e, .ca, .cb, .px, .py, .qx, .qy, .res0, .res1]

/-- The reserved offsets at OPW = 1024 (10_state.md R25, R39). -/
def ReservedOffset (o : Nat) : Prop :=
  o = 0x00C ∨ (0x024 ≤ o ∧ o ≤ 0x0FC) ∨ (0x700 ≤ o ∧ o ≤ 0xFFC)

/-- 1 for a set flag, 0 for a clear one. -/
def flag (b : Bool) : Nat := if b then 1 else 0

/-- What a completion with Error(code, detail) leaves (60_exceptions.md R205). -/
def failed (s : State) (code detail : Nat) : State :=
  { s with
    error := true, errCode := BitVec.ofNat 4 code, errDetail := BitVec.ofNat 4 detail, done := true,
    busy := false }

/-- What a completion that returns one value leaves (10_state.md R40). -/
def oneResult (s : State) (v : Nat) : State :=
  { s with regs := s.regs.set .res0 (BitVec.ofNat Config.opw v), done := true, busy := false }

/-- What a completion that returns a point leaves (10_state.md R40). -/
def pointResult (s : State) (x y : Nat) : State :=
  { s with
    regs := (s.regs.set .res0 (BitVec.ofNat Config.opw x)).set .res1 (BitVec.ofNat Config.opw y)
    done := true
    busy := false }

/-- N is odd and at least `least` (40_montgomery_multiplier.md R100, 43_miller_rabin.md R141). -/
abbrev OddMod (s : State) (least : Nat) : Prop := s.val .n % 2 = 1 ∧ least ≤ s.val .n

/-- MRRound(n, a) = PASS in the closed form of 43_miller_rabin.md R140. -/
def MrPasses (n a : Nat) : Prop :=
  ∃ k q, n - 1 = 2 ^ k * q ∧ q % 2 = 1 ∧
    (a ^ q % n = 1 ∨ ∃ j, j < k ∧ a ^ (2 ^ j * q) % n = n - 1)

/-- A legal witness: in [2, N − 2] (43_miller_rabin.md R140, R142). -/
abbrev LegalWitness (s : State) (a : Nat) : Prop := 2 ≤ a ∧ a ≤ s.val .n - 2

/-- (x, y) satisfies the curve equation (44_ecc.md R161). -/
abbrev CurveEq (s : State) (x y : Nat) : Prop :=
  ((y : Int) ^ 2 - ((x : Int) ^ 3 + s.val .ca * x + s.val .cb)) % (s.val .n : Int) = 0

/-- The range checks of a curve and of P (44_ecc.md R160). -/
abbrev CurveRange (s : State) : Prop :=
  OddMod s 3 ∧ s.val .ca < s.val .n ∧ s.val .cb < s.val .n ∧ s.val .px < s.val .n ∧
    s.val .py < s.val .n

/-- The range checks of Q (44_ecc.md R160). -/
abbrev QRange (s : State) : Prop := s.val .qx < s.val .n ∧ s.val .qy < s.val .n

/-- The detail of the first failing check among CA, CB, PX, then PY (60_exceptions.md R204). -/
def curveDetail (s : State) : Nat :=
  if s.val .n ≤ s.val .ca then 5
  else if s.val .n ≤ s.val .cb then 6
  else if s.val .n ≤ s.val .px then 7
  else 8

/-- The doubling formulas (44_ecc.md R162) for an inverse b of 2y: exact integers, reduced as written. -/
def tangent (n a x y b : Nat) : Nat × Nat :=
  let slope : Int := (3 * (x : Int) ^ 2 + a) * b % n
  let xr : Int := (slope ^ 2 - 2 * x) % n
  let yr : Int := (slope * (x - xr) - y) % n
  (xr.toNat, yr.toNat)

/-- The addition formulas (44_ecc.md R163) for an inverse b of xq − xp. -/
def chord (n xp yp xq yq b : Nat) : Nat × Nat :=
  let slope : Int := ((yq : Int) - yp) * b % n
  let xr : Int := (slope ^ 2 - xp - xq) % n
  let yr : Int := (-(yp : Int) + slope * (xp - xr)) % n
  (xr.toNat, yr.toNat)

/-- The schedule of EC_SMUL (44_ecc.md R167): for i = L − 2 downto 0 a doubling, then an addition where
bit i of e is 1; the first error ends it. L − 1 is log2 e. -/
def doubleAndAdd (n a e : Nat) (p : Nat × Nat) : Except CmdError (Nat × Nat) :=
  (List.range (Nat.log2 e)).reverse.foldlM
    (fun t i => (dblCore n a t).bind fun t2 => if e / 2 ^ i % 2 = 1 then addCore n t2 p else .ok t2) p

/-- The curve of 44_ecc.md R161 over Z/NZ as Mathlib's affine Weierstrass curve, whose nonsingular points with
an identity Mathlib proves to be a group. -/
def groupCurve (s : State) : WeierstrassCurve.Affine (ZMod (s.val .n)) where
  a₁ := 0
  a₂ := 0
  a₃ := 0
  a₄ := s.val .ca
  a₆ := s.val .cb

/-- RES0 after a command that succeeds, none when it reports an error. -/
def answer (i : Instr) (s : State) : Option Nat :=
  match exec i s with
  | .next t => if t.error then none else some (t.val .res0)
  | _ => none

/-- The state with other values in A and B. -/
def withAB (s : State) (a b : Nat) : State :=
  (s.setReg .a (BitVec.ofNat Config.opw a)).setReg .b (BitVec.ofNat Config.opw b)

/-- The state with other values in A and E. -/
def withAE (s : State) (a e : Nat) : State :=
  (s.setReg .a (BitVec.ofNat Config.opw a)).setReg .e (BitVec.ofNat Config.opw e)

/-- The state with P and Q exchanged. -/
def swapPoints (s : State) : State :=
  (((s.setReg .px (s.reg .qx)).setReg .py (s.reg .qy)).setReg .qx (s.reg .px)).setReg .qy (s.reg .py)

/-- The rows of 60_exceptions.md R203 by OPCODE: the (code, detail) pairs a completion may report. -/
def errorRows (opcode : Nat) : List (Nat × Nat) :=
  if opcode = 0x01 ∨ opcode = 0x02 then [(4, 2), (3, 1), (3, 2), (3, 3)]
  else if opcode = 0x03 ∨ opcode = 0x04 ∨ opcode = 0x08 ∨ opcode = 0x10 then [(4, 2), (3, 1), (3, 2)]
  else if opcode = 0x0C then [(4, 2), (3, 1), (3, 2), (1, 1)]
  else if opcode = 0x11 then [(4, 2), (3, 1), (3, 11)]
  else if opcode = 0x18 then [(4, 2), (3, 1), (3, 5), (3, 6), (3, 7), (3, 8)]
  else if opcode = 0x19 then
    [(4, 2), (3, 1), (3, 5), (3, 6), (3, 7), (3, 8), (2, 1), (2, 4), (1, 2)]
  else if opcode = 0x1A then
    [(4, 2), (3, 1), (3, 5), (3, 6), (3, 7), (3, 8), (3, 9), (3, 10), (2, 1), (2, 2), (2, 3), (2, 5),
      (1, 2)]
  else if opcode = 0x1B then
    [(4, 2), (3, 1), (3, 4), (3, 5), (3, 6), (3, 7), (3, 8), (2, 1), (2, 3), (2, 4), (2, 5), (1, 2)]
  else [(4, 1)]

/-- A host access that is no soft reset: a read, or a write that is not a 1 in CTRL bit 0. -/
def NoReset : Event → Prop
  | .read _ _ => True
  | .write off _ data => off = 0x020#12 → data.getLsbD 0 = false
  | .unit => False
  | .hardwareReset => False

end Sys2Proof.Claims

open Sys2Proof Sys2Proof.Machine Sys2Proof.Claims

/-! ### encoding -/

/-- Words written out from the fields of 30_encoding.md R80 and R85 decode to their commands; ROUNDS is
bits 15:8; an undefined opcode is reported before reserved bits (R81, 95_test_vectors.md section 2.8). -/
def Obligations.SampleWordsDecode : Prop :=
  decode 0x00000001#32 = .ok (.modmul 0) ∧ decode 0x00000501#32 = .ok (.modmul 5) ∧
    decode 0x00000008#32 = .ok (.modexp 0) ∧ decode 0x0000000C#32 = .ok (.modinv 0) ∧
    decode 0x00000311#32 = .ok (.mrTest 3) ∧ decode 0x0000001B#32 = .ok (.ecSmul 0) ∧
    decode 0x00010001#32 = .error .reservedBits ∧ decode 0x00000000#32 = .error .undefinedOpcode ∧
    decode 0x00010005#32 = .error .undefinedOpcode

/-- Decoding the word of a well-formed command gives it back (30_encoding.md R80, R85). -/
def Obligations.DecodeOfEncode : Prop := ∀ i : Instr, i.WellFormed → decode (encode i) = .ok i

/-- A word that decodes is the word of the command it decodes to, which is well formed: no bit of a legal
word is dropped (30_encoding.md R80, R83, R85). -/
def Obligations.EncodeOfDecode : Prop :=
  ∀ (w : Word) (i : Instr), decode w = .ok i → i.WellFormed ∧ encode i = w

/-- 30_encoding.md R83, R86: a word with an undefined OPCODE is accepted by CMD and completes with
ILLEGAL_CMD/1, a word with a defined OPCODE and RSV ≠ 0 with ILLEGAL_CMD/2; nothing else changes. -/
def Obligations.IllegalWordCompletes : Prop :=
  ∀ (s : State) (w : Word), s.busy = false →
    (w.toNat % 256 ∉ definedOpcodes →
      runEvents [.write 0x010#12 32 w, .unit] s =
        .next { s with
          cmd := w, busy := false, done := true, error := true, errCode := 4, errDetail := 1,
          roundsDone := 0, response := some .writeOk }) ∧
    (w.toNat % 256 ∈ definedOpcodes → w.toNat / 65536 ≠ 0 →
      runEvents [.write 0x010#12 32 w, .unit] s =
        .next { s with
          cmd := w, busy := false, done := true, error := true, errCode := 4, errDetail := 2,
          roundsDone := 0, response := some .writeOk })

/-- 30_encoding.md R82: ROUNDS is bits 15:8, zero-extended; MR_TEST uses it and every other command, legal
or not, completes the same whatever it is. -/
def Obligations.OnlyTestReadsRounds : Prop :=
  (∀ (w : Word) (k : Nat), decode w = .ok (.mrTest k) → k = w.toNat / 256 % 256) ∧
    ∀ (s : State) (w w' : Word), w.toNat % 256 = w'.toNat % 256 →
      w.toNat / 65536 = w'.toNat / 65536 → w.toNat % 256 ≠ 0x11 →
      ∃ t, unitStep { s with cmd := w } = .next t ∧
        unitStep { s with cmd := w' } = .next { t with cmd := w' }

/-! ### the step -/

/-- A step performs the next move of the list, and the unit's move on a running word that decodes is that
command, at the state with the move taken off the list (10_state.md R40; 30_encoding.md R81). Who moves where
no move is listed is the model's choice, log entry 1. -/
def Obligations.StepRunsDecodedCommand : Prop :=
  (∀ (s : State) (ev : Event) (rest : List Event), s.events = ev :: rest →
    step s = stepEvent ev { s with events := rest }) ∧
  ∀ (s : State) (i : Instr), s.busy = true → decode s.cmd = .ok i →
    (∀ rest, s.events = .unit :: rest → step s = exec i { s with events := rest }) ∧
    (s.events = [] → step s = exec i s)

/-- Writing a well-formed command's word to CMD while idle and then giving the unit its move runs that
command on the state an accepted write leaves (10_state.md R29, R40). -/
def Obligations.StartedCommandRuns : Prop :=
  ∀ (s : State) (i : Instr), s.busy = false → i.WellFormed →
    runEvents [.write 0x010#12 32 (encode i), .unit] s =
      exec i { s with
        cmd := encode i, busy := true, done := false, error := false, errCode := 0, errDetail := 0,
        roundsDone := 0, response := some .writeOk }

/-- No step stops the machine: the block has no trap, and every error is an outcome of a completion
(60_exceptions.md section 1). -/
def Obligations.NoStepStops : Prop := (∀ s : State, Continues s) ∧ ∀ (k : Nat) (s : State), SafeRun k s

/-- With the moves listed all taken and one step more, the unit is idle: every started command completes
(the fairness of 70_reset_and_hazards.md section 3; the bound is the model's, log entry 1). -/
def Obligations.StartedCommandCompletes : Prop :=
  ∀ s : State, ∃ t : State,
    Host.Core.run core (s.events.length + 1) s = .next t ∧ t.busy = false ∧ t.events = []

/-! ### completions -/

/-- Every command, in every state, completes: DONE is set, BUSY cleared, and what no completion writes is
left alone (10_state.md section 4, R23's table of registers). -/
def Obligations.EveryCommandCompletes : Prop :=
  ∀ (i : Instr) (s : State), ∃ t : State, exec i s = .next t ∧ t.done = true ∧ t.busy = false ∧
    t.cmd = s.cmd ∧ t.overrun = s.overrun ∧ t.doneIe = s.doneIe ∧ t.errIe = s.errIe ∧
    t.ovrIe = s.ovrIe ∧ t.response = s.response ∧ t.events = s.events ∧
    (∀ r, r ∉ writesOf i → t.reg r = s.reg r) ∧
    ((∀ k, i ≠ .mrTest k) → t.roundsDone = s.roundsDone ∧ t.rng = s.rng)

/-- 60_exceptions.md R205: a completion with an error, of a command or of an illegal word, changes the STATUS
bits it names and nothing else; a successful one writes only the command's results, ROUNDS_DONE and the draws
for MR_TEST only, DONE and BUSY. -/
def Obligations.ErrorsArePrecise : Prop :=
  (∀ s t : State, s.busy = true → s.error = false → unitStep s = .next t → t.error = true →
    t = { s with
      error := true, errCode := t.errCode, errDetail := t.errDetail, done := true, busy := false }) ∧
  ∀ (i : Instr) (s t : State), exec i s = .next t → s.error = false →
    (t.error = true →
      t = { s with
        error := true, errCode := t.errCode, errDetail := t.errDetail, done := true, busy := false }) ∧
    (t.error = false →
      t = { s with
        regs := t.regs, roundsDone := t.roundsDone, rng := t.rng, done := true, busy := false } ∧
      (∀ r, r ∉ writesOf i → t.reg r = s.reg r) ∧
      ((∀ k, i ≠ .mrTest k) → t.roundsDone = s.roundsDone ∧ t.rng = s.rng))

/-- A completion reports only a (code, detail) pair that the table of 60_exceptions.md section 1 gives its
opcode. -/
def Obligations.ErrorsStayInTable : Prop :=
  ∀ s t : State, s.busy = true → s.error = false → unitStep s = .next t → t.error = true →
    (t.errCode.toNat, t.errDetail.toNat) ∈ errorRows (s.cmd.toNat % 256)

/-- 10_state.md R23: a command reads only the registers listed for it, so two states that agree in them get
the same outcome; it writes only those listed, RES1 only with a point, and nothing when it fails. -/
def Obligations.CommandReadsOnlyItsRegisters : Prop :=
  ∀ (i : Instr) (s : State) (f : OperandFile), (∀ r ∈ readsOf i, f.get r = s.regs.get r) →
    ∃ t u : State, exec i s = .next t ∧ exec i { s with regs := f } = .next u ∧
      u = { t with regs := u.regs } ∧
      (∀ r, r ∉ writesOf i → t.reg r = s.reg r ∧ u.reg r = f.get r) ∧
      (s.error = false → t.error = false → ∀ r ∈ writesOf i, u.reg r = t.reg r) ∧
      (s.error = false → t.error = true → ∀ r, t.reg r = s.reg r ∧ u.reg r = f.get r)

/-- The frame of every command byte by byte over the window: outside STATUS, ROUNDS_DONE, RES0 and RES1 every
byte reads as before, RES1 too unless the command returns a point (10_state.md section 1). -/
def Obligations.CompletionFrameByBytes : Prop :=
  ∀ (i : Instr) (s t : State) (off : Offset), exec i s = .next t →
    off.toNat / 4 * 4 ≠ 0x014 → off.toNat / 4 * 4 ≠ 0x01C →
    (off.toNat < 0x600 ∨ 0x700 ≤ off.toNat ∨ (.res1 ∉ writesOf i ∧ 0x680 ≤ off.toNat)) →
    readByte t off = readByte s off

/-! ### reset -/

/-- 10_state.md R41: the reset value of every piece of state, `irq` deasserted, and the constants. -/
def Obligations.ResetStateValues : Prop :=
  (∀ r, State.reset.val r = 0) ∧ State.reset.cmd = 0 ∧ State.reset.busy = false ∧
    State.reset.done = false ∧ State.reset.error = false ∧ State.reset.overrun = false ∧
    State.reset.errCode = 0 ∧ State.reset.errDetail = 0 ∧ State.reset.doneIe = false ∧
    State.reset.errIe = false ∧ State.reset.ovrIe = false ∧ State.reset.roundsDone = 0 ∧
    irq State.reset = false ∧ readWord State.reset 0x000#12 = 0x4D4F4E54#32 ∧
    readWord State.reset 0x004#12 = 0x00010000#32 ∧ readWord State.reset 0x008#12 = 0x010C0400#32

/-- From every state, busy or not, a reset takes every piece of state to its reset value and takes no draw; the
soft reset does exactly what the hardware reset does (70_reset_and_hazards.md section 1). That the count of draws
is kept across a reset is the model's choice, log entry 7, and so is the field that holds the bus response of the
soft reset's write, log entry 5. -/
def Obligations.ResetEffect : Prop :=
  ∀ s : State, ∃ t : State, stepEvent .hardwareReset s = .next t ∧ (∀ r, t.val r = 0) ∧ t.cmd = 0 ∧
    t.busy = false ∧ t.done = false ∧ t.error = false ∧ t.overrun = false ∧ t.errCode = 0 ∧
    t.errDetail = 0 ∧ t.doneIe = false ∧ t.errIe = false ∧ t.ovrIe = false ∧ t.roundsDone = 0 ∧
    irq t = false ∧ t.rng.taken = s.rng.taken ∧
    ∀ v : Word, v.getLsbD 0 = true →
      stepEvent (.write 0x020#12 32 v) s = .next { t with response := some .writeOk }

/-- A CTRL write with bit 0 set is a reset within that step, one with bit 0 clear has no effect, and a read
returns 0 (10_state.md section 3). That a reset keeps the randomness port and the moves to come is the model's
choice, log entry 7, and so is the field that holds the bus response, log entry 5. -/
def Obligations.ControlRegisterActs : Prop :=
  ∀ (s : State) (v : Word),
    (v.getLsbD 0 = true → busWrite 0x020#12 32 v s =
      { State.reset with rng := s.rng, events := s.events, response := some .writeOk }) ∧
    (v.getLsbD 0 = false → busWrite 0x020#12 32 v s = { s with response := some .writeOk }) ∧
    busRead 0x020#12 32 s = { s with response := some (.readOk 0) }

/-- A soft reset ends a running command the same way whether its completion came first or not, but for the
draws it took (95_test_vectors.md section 3.5, 70_reset_and_hazards.md section 1). -/
def Obligations.SoftResetDiscardsCompletion : Prop :=
  ∀ (s t u : State) (v : Word), v.getLsbD 0 = true →
    runEvents [.unit, .write 0x020#12 32 v] s = .next t →
    runEvents [.write 0x020#12 32 v] s = .next u → t = { u with rng := t.rng }

/-! ### the window -/

/-- 20_memory.md R66, 10_state.md R26 to R28: what a legal read returns, by offset, and that it changes no
state of the block. -/
def Obligations.LegalReadReturnsRegister : Prop :=
  ∀ (s : State) (off : Offset), off.toNat % 4 = 0 → ∃ v : Word,
    busRead off 32 s = { s with response := some (.readOk v) } ∧
    (off.toNat = 0x000 → v = 0x4D4F4E54#32) ∧
    (off.toNat = 0x004 → v = 0x00010000#32) ∧
    (off.toNat = 0x008 → v = 0x010C0400#32) ∧
    (off.toNat = 0x010 → v = s.cmd) ∧
    (off.toNat = 0x014 → v.toNat = flag s.busy + 2 * flag s.done + 4 * flag s.error +
      8 * flag s.overrun + 256 * s.errCode.toNat + 4096 * s.errDetail.toNat) ∧
    (off.toNat = 0x018 → v.toNat = flag s.doneIe + 2 * flag s.errIe + 4 * flag s.ovrIe) ∧
    (off.toNat = 0x01C → v.toNat = s.roundsDone.toNat) ∧
    (off.toNat = 0x020 → v = 0) ∧
    (ReservedOffset off.toNat → v = 0) ∧
    ∀ (i j : Nat) (r : Reg), fileOrder[i]? = some r → j < 32 → off.toNat = 0x100 + 128 * i + 4 * j →
      v.toNat = s.val r / 2 ^ (32 * j) % 2 ^ 32

/-- 20_memory.md R62, R63, R64: any access but a 32-bit one at a multiple of 4 gets a bus error, changes no
state of the block, and a read returns data 0. -/
def Obligations.IllegalAccessRefused : Prop :=
  ∀ (s : State) (off : Offset) (width : Nat) (v : Word), (width ≠ 32 ∨ off.toNat % 4 ≠ 0) →
    busRead off width s = { s with response := some (.readError 0) } ∧
    busWrite off width v s = { s with response := some .writeError }

/-- 10_state.md R29: a CMD write while idle keeps every bit of the word and starts the unit; while busy it is
ignored and sets OVERRUN; a read returns CMD as stored. -/
def Obligations.CommandWriteStarts : Prop :=
  ∀ (s : State) (w : Word),
    (s.busy = false → busWrite 0x010#12 32 w s =
      { s with
        cmd := w, busy := true, done := false, error := false, errCode := 0, errDetail := 0,
        roundsDone := 0, response := some .writeOk }) ∧
    (s.busy = true → busWrite 0x010#12 32 w s =
      { s with overrun := true, response := some .writeOk }) ∧
    busRead 0x010#12 32 s = { s with response := some (.readOk s.cmd) }

/-- 10_state.md R22: word j of register i shows bits [32j+31:32j], and the words add up to the value; a write
of it while idle replaces those bits and leaves every other bit of the register, and every other register,
alone. While busy the write only sets OVERRUN; to RES0 or RES1 it does nothing. -/
def Obligations.OperandWordWrite : Prop :=
  ∀ (s : State) (i j : Nat) (r : Reg) (v : Word), fileOrder[i]? = some r → j < 32 →
    (readWord s (BitVec.ofNat 12 (0x100 + 128 * i + 4 * j))).toNat = s.val r / 2 ^ (32 * j) % 2 ^ 32 ∧
    s.val r = (∑ k ∈ Finset.range 32,
      (readWord s (BitVec.ofNat 12 (0x100 + 128 * i + 4 * k))).toNat * 2 ^ (32 * k)) ∧
    (i < 10 → s.busy = false → ∃ x : Operand,
      busWrite (BitVec.ofNat 12 (0x100 + 128 * i + 4 * j)) 32 v s =
        { s with regs := s.regs.set r x, response := some .writeOk } ∧
      ∀ k < 32, x.toNat / 2 ^ (32 * k) % 2 ^ 32 =
        if k = j then v.toNat else s.val r / 2 ^ (32 * k) % 2 ^ 32) ∧
    (i < 10 → s.busy = true →
      busWrite (BitVec.ofNat 12 (0x100 + 128 * i + 4 * j)) 32 v s =
        { s with overrun := true, response := some .writeOk }) ∧
    (10 ≤ i → busWrite (BitVec.ofNat 12 (0x100 + 128 * i + 4 * j)) 32 v s =
      { s with response := some .writeOk })

/-- A write to ID, VERSION, CONFIG, ROUNDS_DONE or reserved space has no effect and no bus error
(20_memory.md section 3, 10_state.md section 3). -/
def Obligations.ReadOnlyWritesIgnored : Prop :=
  ∀ (s : State) (off : Offset) (v : Word), off.toNat % 4 = 0 →
    (off.toNat = 0x000 ∨ off.toNat = 0x004 ∨ off.toNat = 0x008 ∨ off.toNat = 0x01C ∨
      ReservedOffset off.toNat) →
    busWrite off 32 v s = { s with response := some .writeOk }

/-- 10_state.md R35: ones in bits 1, 2 and 3 of a STATUS write clear DONE, ERROR with its codes, and OVERRUN;
zeros and the other bits do nothing; busy or not. -/
def Obligations.StatusWriteClears : Prop :=
  ∀ (s : State) (w : Word),
    busWrite 0x014#12 32 w s =
      { s with
        done := if w.toNat / 2 % 2 = 1 then false else s.done
        error := if w.toNat / 4 % 2 = 1 then false else s.error
        errCode := if w.toNat / 4 % 2 = 1 then 0 else s.errCode
        errDetail := if w.toNat / 4 % 2 = 1 then 0 else s.errDetail
        overrun := if w.toNat / 8 % 2 = 1 then false else s.overrun
        response := some .writeOk }

/-- 10_state.md R36: an IRQ_EN write stores w[2:0], busy or not, and a read then returns them. -/
def Obligations.IrqEnableWrite : Prop :=
  ∀ (s : State) (w : Word), ∃ t : State,
    busWrite 0x018#12 32 w s = t ∧
    t = { s with
      doneIe := t.doneIe, errIe := t.errIe, ovrIe := t.ovrIe, response := some .writeOk } ∧
    flag t.doneIe = w.toNat % 2 ∧ flag t.errIe = w.toNat / 2 % 2 ∧ flag t.ovrIe = w.toNat / 4 % 2 ∧
    ∃ v : Word, busRead 0x018#12 32 t = { t with response := some (.readOk v) } ∧
      v.toNat = w.toNat % 8

/-- BASE is a multiple of 0x1000; a bus address inside the window is an access at its offset from BASE, and any
other is routed elsewhere and the block never sees it (20_memory.md section 1). That BASE is a free page number and
that an access is put at the end of the moves to come is the model's choice, log entry 4. -/
def Obligations.AddressDecode : Prop :=
  Config.base % 0x1000 = 0 ∧ ∀ (s : State) (addr width : Nat) (v : Word),
    (Config.base ≤ addr → addr ≤ Config.base + 0xFFF → ∃ off : Offset,
      off.toNat = addr - Config.base ∧
      s.hostWritesAt addr width v = { s with events := s.events ++ [.write off width v] } ∧
      s.hostReadsAt addr width = { s with events := s.events ++ [.read off width] }) ∧
    ((addr < Config.base ∨ Config.base + 0xFFF < addr) →
      s.hostWritesAt addr width v = s ∧ s.hostReadsAt addr width = s)

/-- Byte lanes are little-endian: byte 4k + i of the window is bits [8i+7:8i] of the word at 4k
(20_memory.md section 2). -/
def Obligations.ByteLanesLittleEndian : Prop :=
  ∀ (s : State) (k i : Nat), k < 1024 → i < 4 →
    (readByte s (BitVec.ofNat 12 (4 * k + i))).toNat =
      (readWord s (BitVec.ofNat 12 (4 * k))).toNat / 2 ^ (8 * i) % 256

/-- `ldop X, v` while idle leaves v in X, whatever X held, and every other register alone
(30_encoding.md section 5). -/
def Obligations.LoadOperandWrites : Prop :=
  ∀ (s : State) (r : Reg) (v : Operand), s.busy = false → r ≠ .res0 → r ≠ .res1 →
    runEvents (loadEvents r v) s =
      .next { s with regs := s.regs.set r v, response := some .writeOk }

/-- The host's `wait`: a poll of STATUS repeats while BUSY = 1 and goes on with the STATUS it read when
BUSY = 0 (30_encoding.md section 5). -/
def Obligations.WaitPollsUntilIdle : Prop :=
  ∀ (h : Hosted) (x : HostVar) (at_ : Nat), h.halted = false → h.pc = at_ →
    h.prog[at_]? = some (.rd32 0x014#12 x) → h.prog[at_ + 1]? = some (.bnz x 0x1#32 at_) →
    ∃ h' : Hosted, h' = h.hostStep.hostStep ∧
      h'.pc = (if h.dev.busy then at_ else at_ + 2) ∧
      h'.dev = { h.dev with response := some (.readOk (statusWord h.dev)) } ∧
      (h'.getVar x).toNat = (statusWord h.dev).toNat

/-! ### whole-machine rules -/

/-- 10_state.md R31: only a start sets BUSY; only a completion or a reset clears it. -/
def Obligations.BusyChangesOnlySo : Prop :=
  ∀ (ev : Event) (s t : State), stepEvent ev s = .next t →
    (s.busy = false → (t.busy = true ↔ ∃ w, ev = .write 0x010#12 32 w)) ∧
    (s.busy = true → (t.busy = false ↔
      ev = .unit ∨ ev = .hardwareReset ∨
        ∃ w : Word, ev = .write 0x020#12 32 w ∧ w.getLsbD 0 = true))

/-- 10_state.md R34: OVERRUN is set exactly by a write to CMD or to A..QY while busy, which is ignored; only a
1 in STATUS bit 3 or a reset clears it. -/
def Obligations.OverrunChangesOnlySo : Prop :=
  ∀ (ev : Event) (s t : State), stepEvent ev s = .next t →
    (s.overrun = false → (t.overrun = true ↔
      s.busy = true ∧ ∃ (off : Offset) (w : Word), ev = .write off 32 w ∧ off.toNat % 4 = 0 ∧
        (off.toNat = 0x010 ∨ (0x100 ≤ off.toNat ∧ off.toNat ≤ 0x5FC)))) ∧
    (s.busy = true → ∀ (off : Offset) (w : Word), ev = .write off 32 w → off.toNat % 4 = 0 →
      (off.toNat = 0x010 ∨ (0x100 ≤ off.toNat ∧ off.toNat ≤ 0x5FC)) →
      t = { s with overrun := true, response := some .writeOk }) ∧
    (s.overrun = true → (t.overrun = false ↔
      (∃ w : Word, ev = .write 0x014#12 32 w ∧ w.getLsbD 3 = true) ∨ ev = .hardwareReset ∨
        ∃ w : Word, ev = .write 0x020#12 32 w ∧ w.getLsbD 0 = true))

/-- Results cannot be forged and operands cannot change under a command: RES0 and RES1 change only by the
running command's completion, A to QY only by an idle host write to a word of that register, and all by a
reset (10_state.md section 1). -/
def Obligations.RegisterWritersAreThese : Prop :=
  ∀ (ev : Event) (s t : State) (i : Nat) (r : Reg), stepEvent ev s = .next t →
    fileOrder[i]? = some r → t.reg r ≠ s.reg r →
    (10 ≤ i ∧ ev = .unit ∧ s.busy = true) ∨
    (i < 10 ∧ s.busy = false ∧ ∃ (off : Offset) (w : Word), ev = .write off 32 w ∧
      0x100 + 128 * i ≤ off.toNat ∧ off.toNat < 0x100 + 128 * (i + 1)) ∨
    ev = .hardwareReset ∨ ∃ w : Word, ev = .write 0x020#12 32 w ∧ w.getLsbD 0 = true

/-- 60_exceptions.md R208: `irq` is the enabled causes, deasserted at reset; with DONE_IE every completion
raises it; clearing the three causes, or the three enables, deasserts it. -/
def Obligations.IrqFollowsEnabledCauses : Prop :=
  irq State.reset = false ∧
  (∀ s : State, irq s = true ↔
    (s.done = true ∧ s.doneIe = true) ∨ (s.error = true ∧ s.errIe = true) ∨
      (s.overrun = true ∧ s.ovrIe = true)) ∧
  (∀ s t : State, s.busy = true → s.doneIe = true → unitStep s = .next t → irq t = true) ∧
  ∀ s : State, irq (busWrite 0x014#12 32 0xE#32 s) = false ∧ irq (busWrite 0x018#12 32 0#32 s) = false

/-- From every state in which STATUS, CMD and ROUNDS_DONE are related as the spec says, a step leads to such a
state (10_state.md section 3, 60_exceptions.md section 1). -/
def Obligations.StatusInvariantKept : Prop :=
  ∀ s t : State, StatusInv s → step s = .next t → StatusInv t

/-- The reset state is related so (10_state.md section 4). -/
def Obligations.StatusInvariantAtReset : Prop := StatusInv State.reset

/-- The outcome of a running command does not depend on when its completion comes: host accesses in between,
short of a reset, change no register, error or count it leaves (70_reset_and_hazards.md section 3). -/
def Obligations.OutcomeIndependentOfLatency : Prop :=
  ∀ (accesses : List Event) (s t u : State), StatusInv s → s.busy = true →
    (∀ ev ∈ accesses, NoReset ev) →
    runEvents (accesses ++ [.unit]) s = .next t → runEvents [.unit] s = .next u →
    t.regs = u.regs ∧ t.cmd = u.cmd ∧ t.roundsDone = u.roundsDone ∧ t.error = u.error ∧
      t.errCode = u.errCode ∧ t.errDetail = u.errDetail ∧ t.done = u.done ∧ t.busy = u.busy ∧
      t.rng = u.rng

/-! ### the Montgomery multiplier -/

/-- 40_montgomery_multiplier.md R101: MODMUL writes A·B mod N, or reports its first failing check. -/
def Obligations.ModmulProduct : Prop :=
  ∀ (k : Nat) (s : State),
    (OddMod s 3 → s.val .a < s.val .n → s.val .b < s.val .n →
      exec (.modmul k) s = .next (oneResult s (s.val .a * s.val .b % s.val .n))) ∧
    (¬ OddMod s 3 → exec (.modmul k) s = .next (failed s 3 1)) ∧
    (OddMod s 3 → s.val .n ≤ s.val .a → exec (.modmul k) s = .next (failed s 3 2)) ∧
    (OddMod s 3 → s.val .a < s.val .n → s.val .n ≤ s.val .b →
      exec (.modmul k) s = .next (failed s 3 3))

/-- 40_montgomery_multiplier.md R102: MONTMUL writes the v below N with v·2^1024 ≡ A·B (mod N). -/
def Obligations.MontmulProduct : Prop :=
  ∀ (k : Nat) (s : State),
    (OddMod s 3 → s.val .a < s.val .n → s.val .b < s.val .n →
      ∃ v, v < s.val .n ∧ v * 2 ^ Config.opw % s.val .n = s.val .a * s.val .b % s.val .n ∧
        exec (.montmul k) s = .next (oneResult s v)) ∧
    (¬ OddMod s 3 → exec (.montmul k) s = .next (failed s 3 1)) ∧
    (OddMod s 3 → s.val .n ≤ s.val .a → exec (.montmul k) s = .next (failed s 3 2)) ∧
    (OddMod s 3 → s.val .a < s.val .n → s.val .n ≤ s.val .b →
      exec (.montmul k) s = .next (failed s 3 3))

/-- 40_montgomery_multiplier.md R103: MONT_TO writes A·2^1024 mod N. -/
def Obligations.MontToForm : Prop :=
  ∀ (k : Nat) (s : State),
    (OddMod s 3 → s.val .a < s.val .n →
      exec (.montTo k) s = .next (oneResult s (s.val .a * 2 ^ Config.opw % s.val .n))) ∧
    (¬ OddMod s 3 → exec (.montTo k) s = .next (failed s 3 1)) ∧
    (OddMod s 3 → s.val .n ≤ s.val .a → exec (.montTo k) s = .next (failed s 3 2))

/-- 40_montgomery_multiplier.md R104: MONT_FROM writes the v below N with v·2^1024 ≡ A (mod N). -/
def Obligations.MontFromForm : Prop :=
  ∀ (k : Nat) (s : State),
    (OddMod s 3 → s.val .a < s.val .n →
      ∃ v, v < s.val .n ∧ v * 2 ^ Config.opw % s.val .n = s.val .a ∧
        exec (.montFrom k) s = .next (oneResult s v)) ∧
    (¬ OddMod s 3 → exec (.montFrom k) s = .next (failed s 3 1)) ∧
    (OddMod s 3 → s.val .n ≤ s.val .a → exec (.montFrom k) s = .next (failed s 3 2))

/-- 40_montgomery_multiplier.md R105: the laws of the Montgomery domain, over the commands' own results. -/
def Obligations.MontgomeryDomainLaws : Prop :=
  ∀ (s : State) (a b c : Nat), s.error = false → OddMod s 3 → a < s.val .n → b < s.val .n →
    c < s.val .n → ∃ ta tb ab tab bc abc fa m : Nat,
      answer (.montTo 0) (withAB s a b) = some ta ∧ answer (.montTo 0) (withAB s b a) = some tb ∧
      answer (.modmul 0) (withAB s a b) = some ab ∧ answer (.modmul 0) (withAB s b a) = some ab ∧
      answer (.montFrom 0) (withAB s ta b) = some a ∧
      answer (.montTo 0) (withAB s ab b) = some tab ∧
      answer (.montmul 0) (withAB s ta tb) = some tab ∧
      answer (.montmul 0) (withAB s tb ta) = some tab ∧
      answer (.montFrom 0) (withAB s tab b) = some ab ∧
      answer (.modmul 0) (withAB s b c) = some bc ∧ answer (.modmul 0) (withAB s ab c) = some abc ∧
      answer (.modmul 0) (withAB s a bc) = some abc ∧
      answer (.montFrom 0) (withAB s a b) = some fa ∧ answer (.montmul 0) (withAB s a b) = some m ∧
      answer (.montmul 0) (withAB s b a) = some m ∧
      ta < s.val .n ∧ tb < s.val .n ∧ ab < s.val .n ∧ tab < s.val .n ∧ bc < s.val .n ∧
      abc < s.val .n ∧ fa < s.val .n ∧ m < s.val .n

/-! ### modular exponentiation and inverse -/

/-- 41_modular_exponentiation.md R120: MODEXP writes A^E mod N for every E, with 0^0 = 1. -/
def Obligations.ModexpPower : Prop :=
  ∀ (k : Nat) (s : State),
    (OddMod s 3 → s.val .a < s.val .n →
      exec (.modexp k) s = .next (oneResult s (s.val .a ^ s.val .e % s.val .n))) ∧
    (¬ OddMod s 3 → exec (.modexp k) s = .next (failed s 3 1)) ∧
    (OddMod s 3 → s.val .n ≤ s.val .a → exec (.modexp k) s = .next (failed s 3 2))

/-- The laws of MODEXP over the commands' own results (41_modular_exponentiation.md, laws): sums of exponents,
exponents 1 and 2, and Fermat's little theorem, which the spec marks as general knowledge. -/
def Obligations.ModexpLaws : Prop :=
  ∀ (s : State) (a e1 e2 : Nat), s.error = false → OddMod s 3 → a < s.val .n →
    e1 + e2 < 2 ^ Config.opw → ∃ p1 p2 p sq : Nat,
      answer (.modexp 0) (withAE s a e1) = some p1 ∧ answer (.modexp 0) (withAE s a e2) = some p2 ∧
      answer (.modexp 0) (withAE s a (e1 + e2)) = some p ∧
      answer (.modmul 0) (withAB s p1 p2) = some p ∧
      answer (.modexp 0) (withAE s a 1) = some a ∧ answer (.modexp 0) (withAE s a 2) = some sq ∧
      answer (.modmul 0) (withAB s a a) = some sq ∧
      ((s.val .n).Prime → a ≠ 0 → answer (.modexp 0) (withAE s a (s.val .n - 1)) = some 1)

/-- The RSA round trip on the block (41_modular_exponentiation.md, laws): for N = p·q with distinct primes and
e·d ≡ 1 (mod φ(N)), MODEXP by e and then by d gives m back, for every m < N. -/
def Obligations.RsaRoundTrip : Prop :=
  ∀ (s : State) (p q e d m : Nat), s.error = false → p.Prime → q.Prime → p ≠ q →
    s.val .n = p * q → s.val .n % 2 = 1 → e < 2 ^ Config.opw → d < 2 ^ Config.opw →
    e * d % ((p - 1) * (q - 1)) = 1 → m < s.val .n →
    ∃ c : Nat, answer (.modexp 0) (withAE s m e) = some c ∧
      answer (.modexp 0) (withAE s c d) = some m

/-- 42_modular_inverse.md R130: MODINV writes the b below N with A·b mod N = 1, for N of any parity, or
reports its first failing check. -/
def Obligations.ModinvInverse : Prop :=
  ∀ (k : Nat) (s : State),
    (2 ≤ s.val .n → s.val .a < s.val .n → Nat.gcd (s.val .a) (s.val .n) = 1 →
      ∃ b, b < s.val .n ∧ s.val .a * b % s.val .n = 1 ∧
        exec (.modinv k) s = .next (oneResult s b)) ∧
    (s.val .n < 2 → exec (.modinv k) s = .next (failed s 3 1)) ∧
    (2 ≤ s.val .n → s.val .n ≤ s.val .a → exec (.modinv k) s = .next (failed s 3 2)) ∧
    (2 ≤ s.val .n → s.val .a < s.val .n → Nat.gcd (s.val .a) (s.val .n) ≠ 1 →
      exec (.modinv k) s = .next (failed s 1 1))

/-- 42_modular_inverse.md R131: MODINV succeeds exactly when 2 ≤ N, A < N and gcd(A, N) = 1; then
A·RES0 mod N = 1 and RES0 < N, and RES0 is the only such value. -/
def Obligations.ModinvSucceedsExactlyWhen : Prop :=
  ∀ (k : Nat) (s t : State), s.error = false → exec (.modinv k) s = .next t →
    (t.error = false ↔ 2 ≤ s.val .n ∧ s.val .a < s.val .n ∧ Nat.gcd (s.val .a) (s.val .n) = 1) ∧
    (t.error = false → s.val .a * t.val .res0 % s.val .n = 1 ∧ t.val .res0 < s.val .n ∧
      ∀ b, b < s.val .n → s.val .a * b % s.val .n = 1 → b = t.val .res0)

/-! ### Miller–Rabin -/

/-- 43_miller_rabin.md R140, R141: MR_ROUND writes 1 when the round passes and 0 when it proves N composite, or
reports its first failing check. -/
def Obligations.MrRoundVerdict : Prop :=
  ∀ (k : Nat) (s : State),
    (OddMod s 5 → LegalWitness s (s.val .a) →
      ∃ v, exec (.mrRound k) s = .next (oneResult s v) ∧
        ((MrPasses (s.val .n) (s.val .a) ∧ v = 1) ∨ (¬ MrPasses (s.val .n) (s.val .a) ∧ v = 0))) ∧
    (¬ OddMod s 5 → exec (.mrRound k) s = .next (failed s 3 1)) ∧
    (OddMod s 5 → ¬ LegalWitness s (s.val .a) → exec (.mrRound k) s = .next (failed s 3 2))

/-- MR_TEST on a given sequence of draws in [2, N − 2] (43_miller_rabin.md section on MR_TEST): all pass, or it
stops at the first that proves N composite; no draw on an error. That the sequence stands in the port's queue
and its first entries are the draws taken is the model's form of the randomness port, log entry 3. -/
def Obligations.MrTestFollowsDraws : Prop :=
  ∀ (k : Nat) (s : State),
    (∀ ds rest : List Nat, OddMod s 5 → 1 ≤ k → k ≤ 255 → s.rng.queue = ds ++ rest →
      ds.length = k → (∀ a ∈ ds, LegalWitness s a) →
      ((∀ a ∈ ds, MrPasses (s.val .n) a) →
        exec (.mrTest k) s = .next { oneResult s 1 with
          roundsDone := BitVec.ofNat 8 k, rng := { queue := rest, taken := s.rng.taken + k } }) ∧
      ∀ (i a : Nat), ds[i]? = some a → ¬ MrPasses (s.val .n) a →
        (∀ b ∈ ds.take i, MrPasses (s.val .n) b) →
        exec (.mrTest k) s = .next { oneResult s 0 with
          roundsDone := BitVec.ofNat 8 (i + 1)
          rng := { queue := ds.drop (i + 1) ++ rest, taken := s.rng.taken + (i + 1) } }) ∧
    (¬ OddMod s 5 → exec (.mrTest k) s = .next (failed s 3 1)) ∧
    (OddMod s 5 → k = 0 → exec (.mrTest k) s = .next (failed s 3 11))

/-- 43_miller_rabin.md R142: MR_TEST in every state, whatever the randomness source answers: the draws lie in
[2, N − 2], every one but the last passes, RES0 = 1 when all ROUNDS pass and 0 when the last proves N
composite, and ROUNDS_DONE counts them; or it reports its first failing check and takes no draw. -/
def Obligations.MrTestUnderEverySource : Prop :=
  ∀ (k : Nat) (s : State),
    (OddMod s 5 → 1 ≤ k → k ≤ 255 → ∃ (ds : List Nat) (v : Nat) (port : RngPort),
      exec (.mrTest k) s = .next { oneResult s v with
        roundsDone := BitVec.ofNat 8 ds.length, rng := port } ∧
      port.taken = s.rng.taken + ds.length ∧
      1 ≤ ds.length ∧ ds.length ≤ k ∧ (∀ a ∈ ds, LegalWitness s a) ∧
      (∀ a ∈ ds.dropLast, MrPasses (s.val .n) a) ∧
      ((v = 1 ∧ ds.length = k ∧ ∀ a ∈ ds, MrPasses (s.val .n) a) ∨
        (v = 0 ∧ ∃ a, ds.getLast? = some a ∧ ¬ MrPasses (s.val .n) a))) ∧
    (¬ OddMod s 5 → exec (.mrTest k) s = .next (failed s 3 1)) ∧
    (OddMod s 5 → k = 0 → exec (.mrTest k) s = .next (failed s 3 11))

/-- A prime N ≥ 5 passes every round: MR_ROUND writes 1 for every legal witness, and MR_TEST writes 1 with
ROUNDS_DONE = ROUNDS whatever is drawn (43_miller_rabin.md, properties; the spec marks the fact as general
knowledge). -/
def Obligations.PrimesAlwaysPass : Prop :=
  ∀ (s t : State), s.error = false → (s.val .n).Prime → 5 ≤ s.val .n →
    (∀ k, LegalWitness s (s.val .a) → exec (.mrRound k) s = .next t → t.val .res0 = 1) ∧
    (∀ k, 1 ≤ k → k ≤ 255 → exec (.mrTest k) s = .next t →
      t.error = false ∧ t.val .res0 = 1 ∧ t.roundsDone.toNat = k)

/-! ### the elliptic-curve units -/

/-- 44_ecc.md R164: EC_CHECK writes 1 when P satisfies the equation of R161 and 0 when not, never an
INVALID_POINT, or reports its first failing range check. -/
def Obligations.EcCheckMembership : Prop :=
  ∀ (k : Nat) (s : State),
    (CurveRange s → CurveEq s (s.val .px) (s.val .py) →
      exec (.ecCheck k) s = .next (oneResult s 1)) ∧
    (CurveRange s → ¬ CurveEq s (s.val .px) (s.val .py) →
      exec (.ecCheck k) s = .next (oneResult s 0)) ∧
    (¬ OddMod s 3 → exec (.ecCheck k) s = .next (failed s 3 1)) ∧
    (OddMod s 3 → ¬ CurveRange s → exec (.ecCheck k) s = .next (failed s 3 (curveDetail s)))

/-- 44_ecc.md R162, R163: the two cores EC_SMUL calls answer the tangent and the chord formulas for an
inverse of the slope's denominator, or the error of their first failing line. -/
def Obligations.PointCoresFollowFormulas : Prop :=
  ∀ (n a : Nat) (p q : Nat × Nat), 2 ≤ n → p.1 < n → p.2 < n → q.1 < n → q.2 < n →
    (p.2 = 0 → dblCore n a p = .error .doubleZeroY) ∧
    (p.2 ≠ 0 → Nat.gcd (2 * p.2 % n) n ≠ 1 → dblCore n a p = .error .noInverseSlope) ∧
    (p.2 ≠ 0 → Nat.gcd (2 * p.2 % n) n = 1 →
      ∃ b, b < n ∧ 2 * p.2 * b % n = 1 ∧ dblCore n a p = .ok (tangent n a p.1 p.2 b)) ∧
    (p.1 = q.1 → p.2 ≠ q.2 → addCore n p q = .error .addOpposite) ∧
    (p.1 = q.1 → p.2 = q.2 → addCore n p q = .error .addSame) ∧
    (p.1 ≠ q.1 → Int.gcd ((q.1 : Int) - p.1) n ≠ 1 → addCore n p q = .error .noInverseSlope) ∧
    (p.1 ≠ q.1 → Int.gcd ((q.1 : Int) - p.1) n = 1 →
      ∃ b : Nat, b < n ∧ ((q.1 : Int) - p.1) * b % (n : Int) = 1 ∧
        addCore n p q = .ok (chord n p.1 p.2 q.1 q.2 b))

/-- 44_ecc.md R162, R165: EC_DBL writes 2·P by the tangent formulas, or reports its first failing check. -/
def Obligations.EcDblTangent : Prop :=
  ∀ (k : Nat) (s : State),
    (CurveRange s → CurveEq s (s.val .px) (s.val .py) → s.val .py ≠ 0 →
      Nat.gcd (2 * s.val .py % s.val .n) (s.val .n) = 1 →
      ∃ b, b < s.val .n ∧ 2 * s.val .py * b % s.val .n = 1 ∧
        exec (.ecDbl k) s = .next (pointResult s
          (tangent (s.val .n) (s.val .ca) (s.val .px) (s.val .py) b).1
          (tangent (s.val .n) (s.val .ca) (s.val .px) (s.val .py) b).2)) ∧
    (¬ OddMod s 3 → exec (.ecDbl k) s = .next (failed s 3 1)) ∧
    (OddMod s 3 → ¬ CurveRange s → exec (.ecDbl k) s = .next (failed s 3 (curveDetail s))) ∧
    (CurveRange s → ¬ CurveEq s (s.val .px) (s.val .py) →
      exec (.ecDbl k) s = .next (failed s 2 1)) ∧
    (CurveRange s → CurveEq s (s.val .px) (s.val .py) → s.val .py = 0 →
      exec (.ecDbl k) s = .next (failed s 2 4)) ∧
    (CurveRange s → CurveEq s (s.val .px) (s.val .py) → s.val .py ≠ 0 →
      Nat.gcd (2 * s.val .py % s.val .n) (s.val .n) ≠ 1 →
      exec (.ecDbl k) s = .next (failed s 1 2))

/-- 44_ecc.md R163, R166: EC_ADD writes P + Q by the chord formulas, or reports its first failing check. -/
def Obligations.EcAddChord : Prop :=
  ∀ (k : Nat) (s : State),
    (CurveRange s → QRange s → CurveEq s (s.val .px) (s.val .py) →
      CurveEq s (s.val .qx) (s.val .qy) →
      (s.val .px ≠ s.val .qx → Int.gcd ((s.val .qx : Int) - s.val .px) (s.val .n) = 1 →
        ∃ b : Nat, b < s.val .n ∧ ((s.val .qx : Int) - s.val .px) * b % (s.val .n : Int) = 1 ∧
          exec (.ecAdd k) s = .next (pointResult s
            (chord (s.val .n) (s.val .px) (s.val .py) (s.val .qx) (s.val .qy) b).1
            (chord (s.val .n) (s.val .px) (s.val .py) (s.val .qx) (s.val .qy) b).2)) ∧
      (s.val .px = s.val .qx → s.val .py ≠ s.val .qy →
        exec (.ecAdd k) s = .next (failed s 2 3)) ∧
      (s.val .px = s.val .qx → s.val .py = s.val .qy →
        exec (.ecAdd k) s = .next (failed s 2 5)) ∧
      (s.val .px ≠ s.val .qx → Int.gcd ((s.val .qx : Int) - s.val .px) (s.val .n) ≠ 1 →
        exec (.ecAdd k) s = .next (failed s 1 2))) ∧
    (¬ OddMod s 3 → exec (.ecAdd k) s = .next (failed s 3 1)) ∧
    (OddMod s 3 → ¬ CurveRange s → exec (.ecAdd k) s = .next (failed s 3 (curveDetail s))) ∧
    (CurveRange s → s.val .n ≤ s.val .qx → exec (.ecAdd k) s = .next (failed s 3 9)) ∧
    (CurveRange s → s.val .qx < s.val .n → s.val .n ≤ s.val .qy →
      exec (.ecAdd k) s = .next (failed s 3 10)) ∧
    (CurveRange s → QRange s → ¬ CurveEq s (s.val .px) (s.val .py) →
      exec (.ecAdd k) s = .next (failed s 2 1)) ∧
    (CurveRange s → QRange s → CurveEq s (s.val .px) (s.val .py) →
      ¬ CurveEq s (s.val .qx) (s.val .qy) → exec (.ecAdd k) s = .next (failed s 2 2))

/-- 44_ecc.md R167: EC_SMUL writes what left-to-right double-and-add over the bits of E gives, the first core
call that fails deciding the error, or reports its first failing check. -/
def Obligations.EcSmulDoubleAndAdd : Prop :=
  ∀ (k : Nat) (s : State),
    (∀ p : Nat × Nat, CurveRange s → 2 ≤ s.val .e → CurveEq s (s.val .px) (s.val .py) →
      doubleAndAdd (s.val .n) (s.val .ca) (s.val .e) (s.val .px, s.val .py) = .ok p →
      exec (.ecSmul k) s = .next (pointResult s p.1 p.2)) ∧
    (∀ err : CmdError, CurveRange s → 2 ≤ s.val .e → CurveEq s (s.val .px) (s.val .py) →
      doubleAndAdd (s.val .n) (s.val .ca) (s.val .e) (s.val .px, s.val .py) = .error err →
      exec (.ecSmul k) s = .next (failed s err.code.toNat err.detail.toNat)) ∧
    (¬ OddMod s 3 → exec (.ecSmul k) s = .next (failed s 3 1)) ∧
    (OddMod s 3 → s.val .e < 2 → exec (.ecSmul k) s = .next (failed s 3 4)) ∧
    (OddMod s 3 → 2 ≤ s.val .e → ¬ CurveRange s →
      exec (.ecSmul k) s = .next (failed s 3 (curveDetail s))) ∧
    (CurveRange s → 2 ≤ s.val .e → ¬ CurveEq s (s.val .px) (s.val .py) →
      exec (.ecSmul k) s = .next (failed s 2 1))

/-- EC_SMUL with E = 2 is EC_DBL, in every state, errors too (44_ecc.md section 2). -/
def Obligations.ScalarTwoIsDoubling : Prop :=
  ∀ (k k' : Nat) (s : State), s.val .e = 2 → exec (.ecSmul k) s = exec (.ecDbl k') s

/-- Every successful EC_DBL, EC_ADD and EC_SMUL writes a point below N that is on the curve. The spec states it
for N prime; it holds for every N the commands accept (44_ecc.md section 3). -/
def Obligations.PointResultsOnCurve : Prop :=
  ∀ (i : Instr) (s t : State), writesOf i = [.res0, .res1] → s.error = false →
    exec i s = .next t → t.error = false →
    t.val .res0 < s.val .n ∧ t.val .res1 < s.val .n ∧ CurveEq s (t.val .res0) (t.val .res1)

/-- P + Q = Q + P: with the points exchanged EC_ADD succeeds too and writes the same point
(44_ecc.md section 2). -/
def Obligations.PointAdditionCommutes : Prop :=
  ∀ (k : Nat) (s t : State), s.error = false → exec (.ecAdd k) s = .next t → t.error = false →
    ∃ u : State, exec (.ecAdd k) (swapPoints s) = .next u ∧ u.error = false ∧
      u.reg .res0 = t.reg .res0 ∧ u.reg .res1 = t.reg .res1

/-- On a prime N a command that returns a point never reports NO_INVERSE (44_ecc.md section 3). -/
def Obligations.PrimeFieldNeverLacksInverse : Prop :=
  ∀ (i : Instr) (s t : State), writesOf i = [.res0, .res1] → (s.val .n).Prime → s.error = false →
    exec i s = .next t → t.error = true → t.errCode ≠ 1

/-- On a nonsingular curve over a prime field, whenever EC_SMUL succeeds its result is E·P in the group of the
curve (44_ecc.md section 3; the spec marks the fact as general knowledge). -/
def Obligations.ScalarMultipleInGroup : Prop :=
  ∀ (k : Nat) (s t : State) [Fact (s.val .n).Prime],
    (4 * s.val .ca ^ 3 + 27 * s.val .cb ^ 2) % s.val .n ≠ 0 → s.error = false →
    exec (.ecSmul k) s = .next t → t.error = false →
    ∃ (hp : (groupCurve s).Nonsingular (s.val .px) (s.val .py))
      (hr : (groupCurve s).Nonsingular (t.val .res0) (t.val .res1)),
      s.val .e • WeierstrassCurve.Affine.Point.some _ _ hp =
        WeierstrassCurve.Affine.Point.some _ _ hr
end

