-- ==== Sys2Proof/Laws/Arith.lean ====
section
/-! SUPPORT. The arithmetic of the machine computes what 00_scope.md R9 says: one lemma for each function. -/

namespace Sys2Proof.Machine

/-- `modInt` answers a residue. -/
theorem modInt_lt (x : Int) {n : Nat} (hn : 0 < n) : modInt x n < n := by
  have h1 := Int.emod_lt_of_pos x (Int.natCast_pos.mpr hn)
  have h2 := Int.emod_nonneg x (Int.natCast_pos.mpr hn).ne'
  unfold modInt
  omega

/-- `modInt` is the remainder of R9. -/
theorem modInt_cast (x : Int) {n : Nat} (hn : 0 < n) : ((modInt x n : Nat) : Int) = x % n :=
  Int.toNat_of_nonneg (Int.emod_nonneg x (Int.natCast_pos.mpr hn).ne')

/-- `modInt` is congruent to its argument. -/
theorem modInt_modEq (x : Int) {n : Nat} (hn : 0 < n) : ((modInt x n : Nat) : Int) ≡ x [ZMOD n] := by
  rw [modInt_cast x hn]
  exact Int.mod_modEq x n

/-- In Z/NZ `modInt` is its argument. -/
theorem modInt_zmod (x : Int) {n : Nat} (hn : 0 < n) : ((modInt x n : Nat) : ZMod n) = (x : ZMod n) := by
  have h := (ZMod.intCast_eq_intCast_iff _ _ n).mpr (modInt_modEq x hn)
  simpa using h

/-- Repeated squaring computes the power (R9, R120). -/
theorem powModBits_eq (bits : Nat) : ∀ b e n, e < 2 ^ bits → powModBits bits b e n = b ^ e % n := by
  induction bits with
  | zero =>
    intro b e n he
    obtain rfl : e = 0 := by simpa using he
    simp [powModBits]
  | succ k ih =>
    intro b e n he
    have hhalf : e / 2 < 2 ^ k := by
      rw [pow_succ] at he
      omega
    have hsq : (b * b % n) ^ (e / 2) % n = b ^ (2 * (e / 2)) % n := by
      rw [← Nat.pow_mod, ← pow_two, ← pow_mul]
    unfold powModBits
    split
    · next h0 => simp [h0]
    · split
      · next h1 =>
        have hexp : b ^ e = b * b ^ (2 * (e / 2)) := by
          rw [← pow_succ']
          congr 1
          omega
        rw [ih _ _ _ hhalf, hsq, hexp, Nat.mul_mod_mod]
      · next h1 =>
        rw [ih _ _ _ hhalf, hsq]
        congr 2
        omega

/-- The power the machine computes is b^e mod n (R120). -/
theorem powMod_eq (b e n : Nat) (he : e < 2 ^ Config.opw) : powMod b e n = b ^ e % n := by
  rw [powMod, powModBits_eq _ _ _ _ he, ← Nat.pow_mod]

/-- The Euclidean loop: the first answer is the gcd, and each remainder keeps its cofactor. -/
theorem euclid_spec (a n : Nat) : ∀ (fuel r0 r1 : Nat) (s0 s1 : Int), r1 < fuel →
    s0 * a ≡ r0 [ZMOD n] → s1 * a ≡ r1 [ZMOD n] →
    (euclid fuel r0 r1 s0 s1).1 = Nat.gcd r0 r1 ∧
      (euclid fuel r0 r1 s0 s1).2 * a ≡ Nat.gcd r0 r1 [ZMOD n] := by
  intro fuel
  induction fuel with
  | zero => intro r0 r1 s0 s1 h; omega
  | succ k ih =>
    intro r0 r1 s0 s1 hlt h0 h1
    unfold euclid
    split
    · next hz =>
      subst hz
      simpa using h0
    · next hz =>
      have hmod : r0 % r1 < k := lt_of_lt_of_le (Nat.mod_lt _ (Nat.pos_of_ne_zero hz)) (by omega)
      have hstep : (s0 - (r0 / r1 : Nat) * s1) * a ≡ (r0 % r1 : Nat) [ZMOD n] := by
        have hr : ((r0 % r1 : Nat) : Int) = r0 - (r0 / r1 : Nat) * r1 := by
          have h : ((r0 % r1 + r1 * (r0 / r1) : Nat) : Int) = r0 := by rw [Nat.mod_add_div]
          push_cast at h ⊢
          linarith
        rw [hr, sub_mul, mul_assoc]
        exact h0.sub (h1.mul_left _)
      have := ih r1 (r0 % r1) s1 _ hmod h1 hstep
      rw [Nat.gcd_comm r0 r1, Nat.gcd_rec r1 r0, Nat.gcd_comm]
      exact this

/-- `invMod` answers a residue (R130). -/
theorem invMod_lt (a : Nat) {n : Nat} (hn : 0 < n) : invMod a n < n := modInt_lt _ hn

/-- `invMod` is the inverse of R9: a·inv(a, n) mod n = 1 (R130, R131). -/
theorem invMod_spec (a : Nat) {n : Nat} (hn : 0 < n) (hg : Nat.gcd a n = 1) :
    a * invMod a n ≡ 1 [MOD n] := by
  have h := (euclid_spec a n (a + 1) n a 0 1 (by omega)
    (by simp [Int.modEq_iff_dvd]) (by simp)).2
  rw [Nat.gcd_comm, hg] at h
  have hm := (modInt_modEq (euclid (a + 1) n a 0 1).2 hn).mul_right (a : Int)
  have := hm.trans h
  rw [← Int.natCast_modEq_iff]
  push_cast
  rw [mul_comm]
  exact this

/-- The inverse is unique (R131). -/
theorem invMod_unique (a b : Nat) {n : Nat} (hn : 0 < n) (hb : b < n) (hab : a * b ≡ 1 [MOD n]) :
    b = invMod a n := by
  have hg : Nat.gcd a n = 1 := Nat.coprime_of_mul_modEq_one b hab
  have h := invMod_spec a hn hg
  have hcancel : a * b ≡ a * invMod a n [MOD n] := hab.trans h.symm
  have := Nat.ModEq.cancel_left_of_coprime (by rwa [Nat.gcd_comm] at hg) hcancel
  exact Nat.ModEq.eq_of_lt_of_lt this hb (invMod_lt a hn)

/-- In Z/NZ the inverse is an inverse. -/
theorem invMod_zmod (a : Nat) {n : Nat} (hn : 0 < n) (hg : Nat.gcd a n = 1) :
    (a : ZMod n) * (invMod a n : ZMod n) = 1 := by
  have h := (ZMod.natCast_eq_natCast_iff _ _ n).mpr (invMod_spec a hn hg)
  simpa using h

/-- The radix 2^OPW has an inverse modulo an odd N (R100). -/
theorem radix_coprime {n : Nat} (hodd : n % 2 = 1) : Nat.gcd (Config.radix % n) n = 1 := by
  have h2 : Nat.Coprime n (2 ^ Config.opw) :=
    Nat.Coprime.pow_right _ (Nat.coprime_two_right.mpr (Nat.odd_iff.mpr hodd))
  rw [← Nat.gcd_rec]
  exact h2

/-- `splitTwos` takes out all factors 2 (43_miller_rabin.md R140). -/
theorem splitTwos_spec (fuel : Nat) : ∀ m, 0 < m → m < 2 ^ fuel →
    m = 2 ^ (splitTwos fuel m).1 * (splitTwos fuel m).2 ∧ (splitTwos fuel m).2 % 2 = 1 := by
  induction fuel with
  | zero => intro m h0 h1; simp at h1; omega
  | succ k ih =>
    intro m h0 h1
    unfold splitTwos
    split
    · next he =>
      have hlt : m / 2 < 2 ^ k := by rw [pow_succ] at h1; omega
      have := ih (m / 2) (by omega) hlt
      refine ⟨?_, this.2⟩
      have hm : m = 2 * (m / 2) := by omega
      rw [pow_succ]
      calc m = 2 * (m / 2) := hm
        _ = 2 * (2 ^ (splitTwos k (m / 2)).1 * (splitTwos k (m / 2)).2) := by rw [← this.1]
        _ = _ := by ring
    · next he => exact ⟨by simp, by simp; omega⟩

/-- There is one way to write a number as a power of two times an odd number. -/
theorem two_pow_mul_odd_unique {k k' q q' : Nat} (hq : q % 2 = 1) (hq' : q' % 2 = 1)
    (h : 2 ^ k * q = 2 ^ k' * q') : k = k' ∧ q = q' := by
  induction k generalizing k' with
  | zero =>
    cases k' with
    | zero => simpa using h
    | succ j => rw [pow_succ, Nat.mul_right_comm] at h; omega
  | succ i ih =>
    cases k' with
    | zero => rw [pow_succ, Nat.mul_right_comm] at h; omega
    | succ j =>
      have h' : 2 ^ i * q = 2 ^ j * q' := by
        rw [pow_succ, pow_succ] at h
        have : 2 * (2 ^ i * q) = 2 * (2 ^ j * q') := by linarith
        omega
      have := ih h'
      exact ⟨by omega, this.2⟩

/-- In [0, n) the gcd with n is that of the number reduced (R9, 44_ecc.md R163). -/
theorem gcd_modInt (z : Int) {n : Nat} (hn : 0 < n) : Nat.gcd (modInt z n) n = Int.gcd z n := by
  have h : Int.gcd ((modInt z n : Nat) : Int) n = Int.gcd z n := by
    rw [modInt_cast z hn]
    exact Int.gcd_emod z n
  exact h

end Sys2Proof.Machine
end

