-- ==== Sys2Proof/Laws/State.lean ====
section
/-! SUPPORT. The small lemmas of State: the operand register file, and one lemma for each field of each named
update, so that no later proof unfolds a record update. -/

namespace Sys2Proof.Machine

/-- Reading the register file after a write: the register written, or as before. -/
theorem OperandFile.get_set (f : OperandFile) (r r' : Reg) (v : Operand) :
    (f.set r v).get r' = if r' = r then v else f.get r' := by
  cases r <;> cases r' <;> rfl

@[simp] theorem OperandFile.get_set_same (f : OperandFile) (r : Reg) (v : Operand) :
    (f.set r v).get r = v := by
  cases r <;> rfl

theorem OperandFile.get_set_ne (f : OperandFile) {r r' : Reg} (v : Operand) (h : r' ≠ r) :
    (f.set r v).get r' = f.get r' := by
  rw [OperandFile.get_set, if_neg h]

/-- Writing a register back what it holds changes nothing. -/
@[simp] theorem OperandFile.set_get (f : OperandFile) (r : Reg) : f.set r (f.get r) = f := by
  cases r <;> rfl

/-- The last write to a register wins. -/
@[simp] theorem OperandFile.set_set (f : OperandFile) (r : Reg) (v w : Operand) :
    (f.set r v).set r w = f.set r w := by
  cases r <;> rfl

/-- Two register files that agree in every register are equal. -/
theorem OperandFile.ext_get {f g : OperandFile} (h : ∀ r, f.get r = g.get r) : f = g := by
  cases f
  cases g
  have ha := h .a
  have hb := h .b
  have hn := h .n
  have he := h .e
  have hca := h .ca
  have hcb := h .cb
  have hpx := h .px
  have hpy := h .py
  have hqx := h .qx
  have hqy := h .qy
  have h0 := h .res0
  have h1 := h .res1
  simp only [OperandFile.get] at *
  subst ha hb hn he hca hcb hpx hpy hqx hqy h0 h1
  rfl

theorem zeroOperand_eq : zeroOperand = 0#Config.opw := by
  apply BitVec.eq_of_toNat_eq
  simp [zeroOperand]

/-- After reset every operand register holds 0. -/
@[simp] theorem reset_reg (r : Reg) : State.reset.reg r = zeroOperand := by
  cases r <;> rfl

theorem reg_def (s : State) (r : Reg) : s.reg r = s.regs.get r := rfl

/-- A register value lies below 2^OPW (00_scope.md R7). -/
theorem val_lt (s : State) (r : Reg) : s.val r < 2 ^ Config.opw := (s.reg r).isLt

/-! ### setReg -/

@[simp] theorem setReg_regs (s : State) (r : Reg) (v : Operand) :
    (s.setReg r v).regs = s.regs.set r v := rfl
@[simp] theorem setReg_cmd (s : State) (r : Reg) (v : Operand) : (s.setReg r v).cmd = s.cmd := rfl
@[simp] theorem setReg_busy (s : State) (r : Reg) (v : Operand) :
    (s.setReg r v).busy = s.busy := rfl
@[simp] theorem setReg_done (s : State) (r : Reg) (v : Operand) :
    (s.setReg r v).done = s.done := rfl
@[simp] theorem setReg_error (s : State) (r : Reg) (v : Operand) :
    (s.setReg r v).error = s.error := rfl
@[simp] theorem setReg_overrun (s : State) (r : Reg) (v : Operand) :
    (s.setReg r v).overrun = s.overrun := rfl
@[simp] theorem setReg_errCode (s : State) (r : Reg) (v : Operand) :
    (s.setReg r v).errCode = s.errCode := rfl
@[simp] theorem setReg_errDetail (s : State) (r : Reg) (v : Operand) :
    (s.setReg r v).errDetail = s.errDetail := rfl
@[simp] theorem setReg_doneIe (s : State) (r : Reg) (v : Operand) :
    (s.setReg r v).doneIe = s.doneIe := rfl
@[simp] theorem setReg_errIe (s : State) (r : Reg) (v : Operand) :
    (s.setReg r v).errIe = s.errIe := rfl
@[simp] theorem setReg_ovrIe (s : State) (r : Reg) (v : Operand) :
    (s.setReg r v).ovrIe = s.ovrIe := rfl
@[simp] theorem setReg_roundsDone (s : State) (r : Reg) (v : Operand) :
    (s.setReg r v).roundsDone = s.roundsDone := rfl
@[simp] theorem setReg_rng (s : State) (r : Reg) (v : Operand) : (s.setReg r v).rng = s.rng := rfl
@[simp] theorem setReg_response (s : State) (r : Reg) (v : Operand) :
    (s.setReg r v).response = s.response := rfl
@[simp] theorem setReg_events (s : State) (r : Reg) (v : Operand) :
    (s.setReg r v).events = s.events := rfl

/-! ### start -/

@[simp] theorem start_regs (s : State) (w : Word) : (s.start w).regs = s.regs := rfl
@[simp] theorem start_cmd (s : State) (w : Word) : (s.start w).cmd = w := rfl
@[simp] theorem start_busy (s : State) (w : Word) : (s.start w).busy = true := rfl
@[simp] theorem start_done (s : State) (w : Word) : (s.start w).done = false := rfl
@[simp] theorem start_error (s : State) (w : Word) : (s.start w).error = false := rfl
@[simp] theorem start_overrun (s : State) (w : Word) : (s.start w).overrun = s.overrun := rfl
@[simp] theorem start_errCode (s : State) (w : Word) : (s.start w).errCode = 0 := rfl
@[simp] theorem start_errDetail (s : State) (w : Word) : (s.start w).errDetail = 0 := rfl
@[simp] theorem start_doneIe (s : State) (w : Word) : (s.start w).doneIe = s.doneIe := rfl
@[simp] theorem start_errIe (s : State) (w : Word) : (s.start w).errIe = s.errIe := rfl
@[simp] theorem start_ovrIe (s : State) (w : Word) : (s.start w).ovrIe = s.ovrIe := rfl
@[simp] theorem start_roundsDone (s : State) (w : Word) : (s.start w).roundsDone = 0 := rfl
@[simp] theorem start_rng (s : State) (w : Word) : (s.start w).rng = s.rng := rfl
@[simp] theorem start_response (s : State) (w : Word) : (s.start w).response = s.response := rfl
@[simp] theorem start_events (s : State) (w : Word) : (s.start w).events = s.events := rfl

/-! ### markOverrun -/

@[simp] theorem markOverrun_regs (s : State) : (s.markOverrun).regs = s.regs := rfl
@[simp] theorem markOverrun_cmd (s : State) : (s.markOverrun).cmd = s.cmd := rfl
@[simp] theorem markOverrun_busy (s : State) : (s.markOverrun).busy = s.busy := rfl
@[simp] theorem markOverrun_done (s : State) : (s.markOverrun).done = s.done := rfl
@[simp] theorem markOverrun_error (s : State) : (s.markOverrun).error = s.error := rfl
@[simp] theorem markOverrun_overrun (s : State) : (s.markOverrun).overrun = true := rfl
@[simp] theorem markOverrun_errCode (s : State) : (s.markOverrun).errCode = s.errCode := rfl
@[simp] theorem markOverrun_errDetail (s : State) : (s.markOverrun).errDetail = s.errDetail := rfl
@[simp] theorem markOverrun_doneIe (s : State) : (s.markOverrun).doneIe = s.doneIe := rfl
@[simp] theorem markOverrun_errIe (s : State) : (s.markOverrun).errIe = s.errIe := rfl
@[simp] theorem markOverrun_ovrIe (s : State) : (s.markOverrun).ovrIe = s.ovrIe := rfl
@[simp] theorem markOverrun_roundsDone (s : State) :
    (s.markOverrun).roundsDone = s.roundsDone := rfl
@[simp] theorem markOverrun_rng (s : State) : (s.markOverrun).rng = s.rng := rfl
@[simp] theorem markOverrun_response (s : State) : (s.markOverrun).response = s.response := rfl
@[simp] theorem markOverrun_events (s : State) : (s.markOverrun).events = s.events := rfl

/-! ### finish -/

@[simp] theorem finish_regs (s : State) : (s.finish).regs = s.regs := rfl
@[simp] theorem finish_cmd (s : State) : (s.finish).cmd = s.cmd := rfl
@[simp] theorem finish_busy (s : State) : (s.finish).busy = false := rfl
@[simp] theorem finish_done (s : State) : (s.finish).done = true := rfl
@[simp] theorem finish_error (s : State) : (s.finish).error = s.error := rfl
@[simp] theorem finish_overrun (s : State) : (s.finish).overrun = s.overrun := rfl
@[simp] theorem finish_errCode (s : State) : (s.finish).errCode = s.errCode := rfl
@[simp] theorem finish_errDetail (s : State) : (s.finish).errDetail = s.errDetail := rfl
@[simp] theorem finish_doneIe (s : State) : (s.finish).doneIe = s.doneIe := rfl
@[simp] theorem finish_errIe (s : State) : (s.finish).errIe = s.errIe := rfl
@[simp] theorem finish_ovrIe (s : State) : (s.finish).ovrIe = s.ovrIe := rfl
@[simp] theorem finish_roundsDone (s : State) : (s.finish).roundsDone = s.roundsDone := rfl
@[simp] theorem finish_rng (s : State) : (s.finish).rng = s.rng := rfl
@[simp] theorem finish_response (s : State) : (s.finish).response = s.response := rfl
@[simp] theorem finish_events (s : State) : (s.finish).events = s.events := rfl

/-! ### raise -/

@[simp] theorem raise_regs (s : State) (err : CmdError) : (s.raise err).regs = s.regs := rfl
@[simp] theorem raise_cmd (s : State) (err : CmdError) : (s.raise err).cmd = s.cmd := rfl
@[simp] theorem raise_busy (s : State) (err : CmdError) : (s.raise err).busy = false := rfl
@[simp] theorem raise_done (s : State) (err : CmdError) : (s.raise err).done = true := rfl
@[simp] theorem raise_error (s : State) (err : CmdError) : (s.raise err).error = true := rfl
@[simp] theorem raise_overrun (s : State) (err : CmdError) :
    (s.raise err).overrun = s.overrun := rfl
@[simp] theorem raise_errCode (s : State) (err : CmdError) : (s.raise err).errCode = err.code := rfl
@[simp] theorem raise_errDetail (s : State) (err : CmdError) :
    (s.raise err).errDetail = err.detail := rfl
@[simp] theorem raise_doneIe (s : State) (err : CmdError) : (s.raise err).doneIe = s.doneIe := rfl
@[simp] theorem raise_errIe (s : State) (err : CmdError) : (s.raise err).errIe = s.errIe := rfl
@[simp] theorem raise_ovrIe (s : State) (err : CmdError) : (s.raise err).ovrIe = s.ovrIe := rfl
@[simp] theorem raise_roundsDone (s : State) (err : CmdError) :
    (s.raise err).roundsDone = s.roundsDone := rfl
@[simp] theorem raise_rng (s : State) (err : CmdError) : (s.raise err).rng = s.rng := rfl
@[simp] theorem raise_response (s : State) (err : CmdError) :
    (s.raise err).response = s.response := rfl
@[simp] theorem raise_events (s : State) (err : CmdError) : (s.raise err).events = s.events := rfl

/-! ### returnOne -/

@[simp] theorem returnOne_regs (s : State) (v : Nat) :
    (s.returnOne v).regs = s.regs.set .res0 (BitVec.ofNat Config.opw v) := rfl
@[simp] theorem returnOne_cmd (s : State) (v : Nat) : (s.returnOne v).cmd = s.cmd := rfl
@[simp] theorem returnOne_busy (s : State) (v : Nat) : (s.returnOne v).busy = false := rfl
@[simp] theorem returnOne_done (s : State) (v : Nat) : (s.returnOne v).done = true := rfl
@[simp] theorem returnOne_error (s : State) (v : Nat) : (s.returnOne v).error = s.error := rfl
@[simp] theorem returnOne_overrun (s : State) (v : Nat) : (s.returnOne v).overrun = s.overrun := rfl
@[simp] theorem returnOne_errCode (s : State) (v : Nat) : (s.returnOne v).errCode = s.errCode := rfl
@[simp] theorem returnOne_errDetail (s : State) (v : Nat) :
    (s.returnOne v).errDetail = s.errDetail := rfl
@[simp] theorem returnOne_doneIe (s : State) (v : Nat) : (s.returnOne v).doneIe = s.doneIe := rfl
@[simp] theorem returnOne_errIe (s : State) (v : Nat) : (s.returnOne v).errIe = s.errIe := rfl
@[simp] theorem returnOne_ovrIe (s : State) (v : Nat) : (s.returnOne v).ovrIe = s.ovrIe := rfl
@[simp] theorem returnOne_roundsDone (s : State) (v : Nat) :
    (s.returnOne v).roundsDone = s.roundsDone := rfl
@[simp] theorem returnOne_rng (s : State) (v : Nat) : (s.returnOne v).rng = s.rng := rfl
@[simp] theorem returnOne_response (s : State) (v : Nat) :
    (s.returnOne v).response = s.response := rfl
@[simp] theorem returnOne_events (s : State) (v : Nat) : (s.returnOne v).events = s.events := rfl

/-! ### returnPoint -/

@[simp] theorem returnPoint_regs (s : State) (p : Nat × Nat) :
    (s.returnPoint p).regs = (s.regs.set .res0 (BitVec.ofNat Config.opw p.1)).set .res1 (BitVec.ofNat Config.opw p.2) := rfl
@[simp] theorem returnPoint_cmd (s : State) (p : Nat × Nat) : (s.returnPoint p).cmd = s.cmd := rfl
@[simp] theorem returnPoint_busy (s : State) (p : Nat × Nat) : (s.returnPoint p).busy = false := rfl
@[simp] theorem returnPoint_done (s : State) (p : Nat × Nat) : (s.returnPoint p).done = true := rfl
@[simp] theorem returnPoint_error (s : State) (p : Nat × Nat) :
    (s.returnPoint p).error = s.error := rfl
@[simp] theorem returnPoint_overrun (s : State) (p : Nat × Nat) :
    (s.returnPoint p).overrun = s.overrun := rfl
@[simp] theorem returnPoint_errCode (s : State) (p : Nat × Nat) :
    (s.returnPoint p).errCode = s.errCode := rfl
@[simp] theorem returnPoint_errDetail (s : State) (p : Nat × Nat) :
    (s.returnPoint p).errDetail = s.errDetail := rfl
@[simp] theorem returnPoint_doneIe (s : State) (p : Nat × Nat) :
    (s.returnPoint p).doneIe = s.doneIe := rfl
@[simp] theorem returnPoint_errIe (s : State) (p : Nat × Nat) :
    (s.returnPoint p).errIe = s.errIe := rfl
@[simp] theorem returnPoint_ovrIe (s : State) (p : Nat × Nat) :
    (s.returnPoint p).ovrIe = s.ovrIe := rfl
@[simp] theorem returnPoint_roundsDone (s : State) (p : Nat × Nat) :
    (s.returnPoint p).roundsDone = s.roundsDone := rfl
@[simp] theorem returnPoint_rng (s : State) (p : Nat × Nat) : (s.returnPoint p).rng = s.rng := rfl
@[simp] theorem returnPoint_response (s : State) (p : Nat × Nat) :
    (s.returnPoint p).response = s.response := rfl
@[simp] theorem returnPoint_events (s : State) (p : Nat × Nat) :
    (s.returnPoint p).events = s.events := rfl

/-! ### returnTest -/

@[simp] theorem returnTest_regs (s : State) (v k : Nat) :
    (s.returnTest v k).regs = s.regs.set .res0 (BitVec.ofNat Config.opw v) := rfl
@[simp] theorem returnTest_cmd (s : State) (v k : Nat) : (s.returnTest v k).cmd = s.cmd := rfl
@[simp] theorem returnTest_busy (s : State) (v k : Nat) : (s.returnTest v k).busy = false := rfl
@[simp] theorem returnTest_done (s : State) (v k : Nat) : (s.returnTest v k).done = true := rfl
@[simp] theorem returnTest_error (s : State) (v k : Nat) : (s.returnTest v k).error = s.error := rfl
@[simp] theorem returnTest_overrun (s : State) (v k : Nat) :
    (s.returnTest v k).overrun = s.overrun := rfl
@[simp] theorem returnTest_errCode (s : State) (v k : Nat) :
    (s.returnTest v k).errCode = s.errCode := rfl
@[simp] theorem returnTest_errDetail (s : State) (v k : Nat) :
    (s.returnTest v k).errDetail = s.errDetail := rfl
@[simp] theorem returnTest_doneIe (s : State) (v k : Nat) :
    (s.returnTest v k).doneIe = s.doneIe := rfl
@[simp] theorem returnTest_errIe (s : State) (v k : Nat) : (s.returnTest v k).errIe = s.errIe := rfl
@[simp] theorem returnTest_ovrIe (s : State) (v k : Nat) : (s.returnTest v k).ovrIe = s.ovrIe := rfl
@[simp] theorem returnTest_roundsDone (s : State) (v k : Nat) :
    (s.returnTest v k).roundsDone = BitVec.ofNat 8 k := rfl
@[simp] theorem returnTest_rng (s : State) (v k : Nat) : (s.returnTest v k).rng = s.rng := rfl
@[simp] theorem returnTest_response (s : State) (v k : Nat) :
    (s.returnTest v k).response = s.response := rfl
@[simp] theorem returnTest_events (s : State) (v k : Nat) :
    (s.returnTest v k).events = s.events := rfl

/-! ### resetBlock -/

@[simp] theorem resetBlock_regs (s : State) : (s.resetBlock).regs = State.reset.regs := rfl
@[simp] theorem resetBlock_cmd (s : State) : (s.resetBlock).cmd = State.reset.cmd := rfl
@[simp] theorem resetBlock_busy (s : State) : (s.resetBlock).busy = State.reset.busy := rfl
@[simp] theorem resetBlock_done (s : State) : (s.resetBlock).done = State.reset.done := rfl
@[simp] theorem resetBlock_error (s : State) : (s.resetBlock).error = State.reset.error := rfl
@[simp] theorem resetBlock_overrun (s : State) : (s.resetBlock).overrun = State.reset.overrun := rfl
@[simp] theorem resetBlock_errCode (s : State) : (s.resetBlock).errCode = State.reset.errCode := rfl
@[simp] theorem resetBlock_errDetail (s : State) :
    (s.resetBlock).errDetail = State.reset.errDetail := rfl
@[simp] theorem resetBlock_doneIe (s : State) : (s.resetBlock).doneIe = State.reset.doneIe := rfl
@[simp] theorem resetBlock_errIe (s : State) : (s.resetBlock).errIe = State.reset.errIe := rfl
@[simp] theorem resetBlock_ovrIe (s : State) : (s.resetBlock).ovrIe = State.reset.ovrIe := rfl
@[simp] theorem resetBlock_roundsDone (s : State) :
    (s.resetBlock).roundsDone = State.reset.roundsDone := rfl
@[simp] theorem resetBlock_rng (s : State) : (s.resetBlock).rng = s.rng := rfl
@[simp] theorem resetBlock_response (s : State) : (s.resetBlock).response = s.response := rfl
@[simp] theorem resetBlock_events (s : State) : (s.resetBlock).events = s.events := rfl

/-! ### clearStatus -/

@[simp] theorem clearStatus_regs (s : State) (w : Word) : (clearStatus w s).regs = s.regs := rfl
@[simp] theorem clearStatus_cmd (s : State) (w : Word) : (clearStatus w s).cmd = s.cmd := rfl
@[simp] theorem clearStatus_busy (s : State) (w : Word) : (clearStatus w s).busy = s.busy := rfl
@[simp] theorem clearStatus_done (s : State) (w : Word) :
    (clearStatus w s).done = (s.done && !w.getLsbD 1) := rfl
@[simp] theorem clearStatus_error (s : State) (w : Word) :
    (clearStatus w s).error = (s.error && !w.getLsbD 2) := rfl
@[simp] theorem clearStatus_overrun (s : State) (w : Word) :
    (clearStatus w s).overrun = (s.overrun && !w.getLsbD 3) := rfl
@[simp] theorem clearStatus_errCode (s : State) (w : Word) :
    (clearStatus w s).errCode = (if w.getLsbD 2 then 0 else s.errCode) := rfl
@[simp] theorem clearStatus_errDetail (s : State) (w : Word) :
    (clearStatus w s).errDetail = (if w.getLsbD 2 then 0 else s.errDetail) := rfl
@[simp] theorem clearStatus_doneIe (s : State) (w : Word) :
    (clearStatus w s).doneIe = s.doneIe := rfl
@[simp] theorem clearStatus_errIe (s : State) (w : Word) : (clearStatus w s).errIe = s.errIe := rfl
@[simp] theorem clearStatus_ovrIe (s : State) (w : Word) : (clearStatus w s).ovrIe = s.ovrIe := rfl
@[simp] theorem clearStatus_roundsDone (s : State) (w : Word) :
    (clearStatus w s).roundsDone = s.roundsDone := rfl
@[simp] theorem clearStatus_rng (s : State) (w : Word) : (clearStatus w s).rng = s.rng := rfl
@[simp] theorem clearStatus_response (s : State) (w : Word) :
    (clearStatus w s).response = s.response := rfl
@[simp] theorem clearStatus_events (s : State) (w : Word) :
    (clearStatus w s).events = s.events := rfl

/-! ### setIrqEn -/

@[simp] theorem setIrqEn_regs (s : State) (w : Word) : (setIrqEn w s).regs = s.regs := rfl
@[simp] theorem setIrqEn_cmd (s : State) (w : Word) : (setIrqEn w s).cmd = s.cmd := rfl
@[simp] theorem setIrqEn_busy (s : State) (w : Word) : (setIrqEn w s).busy = s.busy := rfl
@[simp] theorem setIrqEn_done (s : State) (w : Word) : (setIrqEn w s).done = s.done := rfl
@[simp] theorem setIrqEn_error (s : State) (w : Word) : (setIrqEn w s).error = s.error := rfl
@[simp] theorem setIrqEn_overrun (s : State) (w : Word) : (setIrqEn w s).overrun = s.overrun := rfl
@[simp] theorem setIrqEn_errCode (s : State) (w : Word) : (setIrqEn w s).errCode = s.errCode := rfl
@[simp] theorem setIrqEn_errDetail (s : State) (w : Word) :
    (setIrqEn w s).errDetail = s.errDetail := rfl
@[simp] theorem setIrqEn_doneIe (s : State) (w : Word) : (setIrqEn w s).doneIe = w.getLsbD 0 := rfl
@[simp] theorem setIrqEn_errIe (s : State) (w : Word) : (setIrqEn w s).errIe = w.getLsbD 1 := rfl
@[simp] theorem setIrqEn_ovrIe (s : State) (w : Word) : (setIrqEn w s).ovrIe = w.getLsbD 2 := rfl
@[simp] theorem setIrqEn_roundsDone (s : State) (w : Word) :
    (setIrqEn w s).roundsDone = s.roundsDone := rfl
@[simp] theorem setIrqEn_rng (s : State) (w : Word) : (setIrqEn w s).rng = s.rng := rfl
@[simp] theorem setIrqEn_response (s : State) (w : Word) :
    (setIrqEn w s).response = s.response := rfl
@[simp] theorem setIrqEn_events (s : State) (w : Word) : (setIrqEn w s).events = s.events := rfl

/-! ### registers after an update -/

theorem setReg_reg (s : State) (r r' : Reg) (v : Operand) :
    (s.setReg r v).reg r' = if r' = r then v else s.reg r' := OperandFile.get_set _ _ _ _

theorem returnOne_reg (s : State) (v : Nat) (r : Reg) :
    (s.returnOne v).reg r = if r = .res0 then BitVec.ofNat Config.opw v else s.reg r :=
  OperandFile.get_set _ _ _ _

theorem returnTest_reg (s : State) (v k : Nat) (r : Reg) :
    (s.returnTest v k).reg r = if r = .res0 then BitVec.ofNat Config.opw v else s.reg r :=
  OperandFile.get_set _ _ _ _

theorem returnPoint_reg (s : State) (p : Nat × Nat) (r : Reg) :
    (s.returnPoint p).reg r =
      if r = .res1 then BitVec.ofNat Config.opw p.2
      else if r = .res0 then BitVec.ofNat Config.opw p.1 else s.reg r := by
  simp only [reg_def, returnPoint_regs, OperandFile.get_set]

@[simp] theorem raise_reg (s : State) (err : CmdError) (r : Reg) : (s.raise err).reg r = s.reg r := rfl

@[simp] theorem finish_reg (s : State) (r : Reg) : s.finish.reg r = s.reg r := rfl

@[simp] theorem start_reg (s : State) (w : Word) (r : Reg) : (s.start w).reg r = s.reg r := rfl

@[simp] theorem markOverrun_reg (s : State) (r : Reg) : s.markOverrun.reg r = s.reg r := rfl

@[simp] theorem clearStatus_reg (s : State) (w : Word) (r : Reg) :
    (clearStatus w s).reg r = s.reg r := rfl

@[simp] theorem setIrqEn_reg (s : State) (w : Word) (r : Reg) : (setIrqEn w s).reg r = s.reg r := rfl

@[simp] theorem resetBlock_reg (s : State) (r : Reg) : s.resetBlock.reg r = zeroOperand := by
  cases r <;> rfl

end Sys2Proof.Machine
end

