-- ==== Sys2Proof/Laws/Bus.lean ====
section
/-! SUPPORT. The words of an operand register, the map of the window, and what an access can do. -/

namespace Sys2Proof.Machine

/-! ### words of an operand register -/

/-- OPW is OPWW words of 32 bits (00_scope.md R6). -/
theorem opw_eq : Config.opw = 32 * Config.opww := by simp [Config.opww, Config.opw]

/-- OPWW on this hardware (00_scope.md R6). -/
theorem opww_eq : Config.opww = 32 := by simp [Config.opww, Config.opw]

/-- The bytes of an operand register on this hardware (10_state.md R21). -/
theorem regBytes_eq : Config.regBytes = 128 := by simp [Config.regBytes, Config.opw]

/-- The CONFIG register on this hardware (10_state.md R28). -/
theorem configWord_eq : Config.configWord = 0x010C0400#32 := by
  decide +kernel

/-- A word of a register after a write of one word: the word written, or as before (10_state.md R22). -/
theorem operandWord_setOperandWord (x : Operand) {j : Nat} (hj : j < Config.opww) (k : Nat) (v : Word) :
    operandWord (setOperandWord x j v) k = if k = j then v else operandWord x k := by
  have hopw := opw_eq
  apply BitVec.eq_of_getLsbD_eq
  intro i hi
  by_cases hk : k = j
  · subst hk
    have h1 : 32 * k + i < Config.opw := by omega
    have h2 : ¬ 32 * k + i < 32 * k := by omega
    have h3 : 32 * k + i - 32 * k = i := by omega
    simp only [operandWord, setOperandWord, if_true, BitVec.getLsbD_extractLsb', BitVec.getLsbD_or,
      BitVec.getLsbD_and, BitVec.getLsbD_not, BitVec.getLsbD_shiftLeft, BitVec.getLsbD_setWidth,
      BitVec.getLsbD_allOnes, h1, h2, h3, hi, show i < Config.opw by omega]
    simp
  · simp only [operandWord, setOperandWord, if_neg hk, BitVec.getLsbD_extractLsb', BitVec.getLsbD_or,
      BitVec.getLsbD_and, BitVec.getLsbD_not, BitVec.getLsbD_shiftLeft, BitVec.getLsbD_setWidth,
      BitVec.getLsbD_allOnes, hi, decide_true, Bool.true_and]
    by_cases hlt : 32 * k + i < 32 * j
    · by_cases hb : 32 * k + i < Config.opw
      · simp [hlt, hb]
      · simp [hlt, hb, BitVec.getLsbD_of_ge x _ (by omega)]
    · have hge : 32 ≤ 32 * k + i - 32 * j := by omega
      have hno : ¬ (32 * k + i - 32 * j < 32) := by omega
      by_cases hb : 32 * k + i < Config.opw
      · simp [hlt, hb, hno, BitVec.getLsbD_of_ge v _ hge]
      · simp [hlt, hb, BitVec.getLsbD_of_ge v _ hge, BitVec.getLsbD_of_ge x _ (Nat.le_of_not_lt hb)]

/-- Two operand values with the same words are equal (10_state.md R22). -/
theorem operand_ext {x y : Operand} (h : ∀ j < Config.opww, operandWord x j = operandWord y j) :
    x = y := by
  have hopw := opw_eq
  apply BitVec.eq_of_getLsbD_eq
  intro i hi
  have hw := congrArg (fun w : Word => w.getLsbD (i % 32)) (h (i / 32) (by omega))
  have hidx : 32 * (i / 32) + i % 32 = i := by omega
  have hlt : i % 32 < 32 := Nat.mod_lt _ (by decide)
  simpa [operandWord, hlt, hidx] using hw

/-- A word of a register as a number: (x / 2^(32j)) mod 2^32 (10_state.md R22). -/
theorem operandWord_toNat (x : Operand) (j : Nat) :
    (operandWord x j).toNat = x.toNat / 2 ^ (32 * j) % 2 ^ 32 := by
  simp [operandWord, BitVec.extractLsb'_toNat, Nat.shiftRight_eq_div_pow]

/-- A 32-bit word zero-extended to a register keeps its value (30_encoding.md R88). -/
theorem setWidth_opw_toNat (w : Word) : (w.setWidth Config.opw).toNat = w.toNat := by
  have h : 2 ^ 32 ≤ 2 ^ Config.opw := Nat.pow_le_pow_right (by decide) (by simp [Config.opw])
  rw [BitVec.toNat_setWidth, Nat.mod_eq_of_lt (lt_of_lt_of_le w.isLt h)]

/-- Its word 0 is the word. -/
theorem operandWord_setWidth (w : Word) : operandWord (w.setWidth Config.opw) 0 = w := by
  apply BitVec.eq_of_toNat_eq
  rw [operandWord_toNat, setWidth_opw_toNat, Nat.mul_zero, pow_zero, Nat.div_one,
    Nat.mod_eq_of_lt w.isLt]

/-- The low k words of a value, summed (10_state.md R22). -/
theorem sum_words (x k : Nat) :
    (∑ j ∈ Finset.range k, x / 2 ^ (32 * j) % 2 ^ 32 * 2 ^ (32 * j)) = x % 2 ^ (32 * k) := by
  induction k with
  | zero => simp [Nat.mod_one]
  | succ k ih =>
    rw [Finset.sum_range_succ, ih, Nat.mul_succ, pow_add, Nat.mod_mul, Nat.mul_comm (2 ^ (32 * k))]

/-- `x[X] = Σ word_j · 2^(32j)` (10_state.md R22). -/
theorem operand_eq_sum (x : Operand) :
    x.toNat = ∑ j ∈ Finset.range Config.opww, (operandWord x j).toNat * 2 ^ (32 * j) := by
  simp only [operandWord_toNat]
  rw [sum_words, ← opw_eq, Nat.mod_eq_of_lt x.isLt]

/-! ### the map of the window -/

theorem regOfIndex_index (r : Reg) : regOfIndex r.index = some r := by
  cases r <;> rfl

theorem index_lt (r : Reg) : r.index < Config.nreg := by
  cases r <;> decide

/-- The number of the offset of word j of a register (10_state.md R22). -/
theorem operandOffset_toNat (r : Reg) {j : Nat} (hj : j < Config.opww) :
    (operandOffset r j).toNat = 0x100 + r.index * Config.regBytes + 4 * j := by
  have h1 := index_lt r
  have h2 := regBytes_eq
  have h3 := opww_eq
  have h4 : Config.nreg = 12 := rfl
  simp only [operandOffset, BitVec.toNat_ofNat]
  rw [h2]
  apply Nat.mod_eq_of_lt
  omega

/-- What stands at the offset of word j of a register is that word (10_state.md R21, R22). -/
theorem locate_operandOffset (r : Reg) {j : Nat} (hj : j < Config.opww) :
    locate (operandOffset r j).toNat = .operand r j := by
  have h2 := regBytes_eq
  have h3 := opww_eq
  have hdiv : (0x100 + r.index * 128 + 4 * j - 0x100) / 128 = r.index := by omega
  have hmod : (0x100 + r.index * 128 + 4 * j - 0x100) % 128 / 4 = j := by omega
  have hoff := operandOffset_toNat r hj
  rw [h2] at hoff
  unfold locate
  rw [if_pos (by omega), h2, hoff, hdiv, hmod, regOfIndex_index]

/-- The offset of a word of a register is a legal place for a 32-bit access (20_memory.md R63). -/
theorem legalAccess_operandOffset (r : Reg) {j : Nat} (hj : j < Config.opww) :
    legalAccess (operandOffset r j) 32 = true := by
  have h2 := regBytes_eq
  rw [legalAccess, operandOffset_toNat r hj, h2]
  simp
  omega

/-- Only offsets below the end of the register file show an operand register, and then one of its words. -/
theorem locate_operand_bound {off : Nat} {r : Reg} {j : Nat} (h : locate off = .operand r j) :
    j < Config.opww ∧ 0x100 + r.index * Config.regBytes + 4 * j ≤ off ∧
      off < 0x100 + r.index * Config.regBytes + 4 * j + 4 := by
  have h2 := regBytes_eq
  have h3 := opww_eq
  unfold locate at h
  split at h
  · next hge =>
    rw [h2] at h ⊢
    have key : ∀ r', regOfIndex ((off - 0x100) / 128) = some r' →
        r'.index = (off - 0x100) / 128 := by
      intro r' hr
      generalize (off - 0x100) / 128 = m at hr ⊢
      unfold regOfIndex at hr
      split at hr <;> first | (cases hr; rfl) | cases hr
    split at h
    · next r' hr =>
      cases h
      have := key _ hr
      omega
    · cases h
  · split at h <;> cases h

/-- CMD stands at one offset only (10_state.md R25). -/
theorem locate_cmd {off : Nat} (h : locate off = .cmd) : off = 0x010 := by
  unfold locate at h
  split at h
  · split at h <;> cases h
  · split at h <;> first | rfl | cases h

/-- STATUS stands at one offset only (10_state.md R25). -/
theorem locate_status {off : Nat} (h : locate off = .status) : off = 0x014 := by
  unfold locate at h
  split at h
  · split at h <;> cases h
  · split at h <;> first | rfl | cases h

/-- CTRL stands at one offset only (10_state.md R25). -/
theorem locate_ctrl {off : Nat} (h : locate off = .ctrl) : off = 0x020 := by
  unfold locate at h
  split at h
  · split at h <;> cases h
  · split at h <;> first | rfl | cases h

/-! ### accesses -/

/-- When an access is legal (20_memory.md R62, R63). -/
theorem legalAccess_iff (off : Offset) (width : Nat) :
    legalAccess off width = true ↔ width = 32 ∧ off.toNat % 4 = 0 := by
  simp [legalAccess]

/-- A legal read (20_memory.md R66). -/
theorem busRead_legal {off : Offset} {width : Nat} (h : legalAccess off width = true) (s : State) :
    busRead off width s = { s with response := some (.readOk (readWord s off)) } := by
  simp [busRead, h]

/-- A refused read (20_memory.md R64). -/
theorem busRead_illegal {off : Offset} {width : Nat} (h : legalAccess off width = false) (s : State) :
    busRead off width s = { s with response := some (.readError 0) } := by
  simp [busRead, h]

/-- A legal write (20_memory.md R67). -/
theorem busWrite_legal {off : Offset} {width : Nat} (h : legalAccess off width = true) (v : Word)
    (s : State) :
    busWrite off width v s =
      { writeReg v s (locate off.toNat) with response := some .writeOk } := by
  simp [busWrite, h]

/-- A refused write (20_memory.md R64). -/
theorem busWrite_illegal {off : Offset} {width : Nat} (h : legalAccess off width = false) (v : Word)
    (s : State) : busWrite off width v s = { s with response := some .writeError } := by
  simp [busWrite, h]

/-- A CMD write while idle is a start (10_state.md R29). -/
theorem writeReg_cmd_idle {s : State} (h : s.busy = false) (v : Word) :
    writeReg v s .cmd = s.start v := by
  simp [writeReg, h]

/-- A CMD write while busy is ignored and sets OVERRUN (10_state.md R34). -/
theorem writeReg_cmd_busy {s : State} (h : s.busy = true) (v : Word) :
    writeReg v s .cmd = s.markOverrun := by
  simp [writeReg, h]

/-- An operand write while idle replaces one word (10_state.md R22). -/
theorem writeReg_operand_idle {s : State} {r : Reg} (hr : r.hostWritable = true) (h : s.busy = false)
    (j : Nat) (v : Word) :
    writeReg v s (.operand r j) = s.setReg r (setOperandWord (s.reg r) j v) := by
  simp [writeReg, hr, h]

/-- An operand write while busy is ignored and sets OVERRUN (10_state.md R34). -/
theorem writeReg_operand_busy {s : State} {r : Reg} (hr : r.hostWritable = true) (h : s.busy = true)
    (j : Nat) (v : Word) : writeReg v s (.operand r j) = s.markOverrun := by
  simp [writeReg, hr, h]

/-- A write to RES0 or RES1 has no effect (10_state.md R21). -/
theorem writeReg_operand_readOnly {r : Reg} (hr : r.hostWritable = false) (s : State) (j : Nat)
    (v : Word) : writeReg v s (.operand r j) = s := by
  simp [writeReg, hr]

/-- A CTRL write with bit 0 set is a reset (10_state.md R38). -/
theorem writeReg_ctrl_reset {v : Word} (h : v.getLsbD 0 = true) (s : State) :
    writeReg v s .ctrl = s.resetBlock := by
  simp only [writeReg, h, if_true]

/-- A CTRL write with bit 0 clear has no effect (10_state.md R38). -/
theorem writeReg_ctrl_noop {v : Word} (h : v.getLsbD 0 = false) (s : State) :
    writeReg v s .ctrl = s := by
  simp only [writeReg, h, Bool.false_eq_true, if_false]

/-- Everything a legal write can do to the block (20_memory.md R67). -/
theorem writeReg_cases (v : Word) (s : State) (at_ : WindowReg) :
    writeReg v s at_ = s ∨
      (at_ = .cmd ∧ s.busy = false ∧ writeReg v s at_ = s.start v) ∨
      (s.busy = true ∧ (at_ = .cmd ∨ ∃ r j, at_ = .operand r j ∧ r.hostWritable = true) ∧
        writeReg v s at_ = s.markOverrun) ∨
      (at_ = .status ∧ writeReg v s at_ = clearStatus v s) ∨
      (at_ = .irqEn ∧ writeReg v s at_ = setIrqEn v s) ∨
      (at_ = .ctrl ∧ v.getLsbD 0 = true ∧ writeReg v s at_ = s.resetBlock) ∨
      (∃ r j, at_ = .operand r j ∧ r.hostWritable = true ∧ s.busy = false ∧
        writeReg v s at_ = s.setReg r (setOperandWord (s.reg r) j v)) := by
  cases at_ with
  | id => exact .inl rfl
  | version => exact .inl rfl
  | config => exact .inl rfl
  | roundsDone => exact .inl rfl
  | reserved => exact .inl rfl
  | cmd => cases hb : s.busy <;> simp [writeReg, hb]
  | status => simp [writeReg]
  | irqEn => simp [writeReg]
  | ctrl => cases hv : v.getLsbD 0 <;> simp only [writeReg, hv] <;> simp
  | operand r j =>
    cases hr : r.hostWritable
    · left
      simp [writeReg, hr]
    · cases hb : s.busy <;> simp [writeReg, hr, hb]

/-- A register holds what is written to it, one word at a time (10_state.md R22; 30_encoding.md R89). -/
theorem setReg_reg_same (s : State) (r : Reg) (v : Operand) : (s.setReg r v).reg r = v := by
  simp [setReg_reg]

/-- After the writes of words 0 to k − 1 of v, exactly those words of the register are v's. -/
theorem runEvents_load_prefix (r : Reg) (hr : r.hostWritable = true) (v : Operand) (rest : List Event) :
    ∀ (k j : Nat) (s : State), j + k ≤ Config.opww → s.busy = false →
      ∃ x : Operand,
        (∀ i < Config.opww, operandWord x i =
          if j ≤ i ∧ i < j + k then operandWord v i else operandWord (s.reg r) i) ∧
        runEvents (((List.range' j k).map fun i => .write (operandOffset r i) 32 (operandWord v i)) ++ rest) s
          = runEvents rest (if k = 0 then s else { s.setReg r x with response := some .writeOk }) := by
  intro k
  induction k with
  | zero =>
    intro j s _ _
    exact ⟨s.reg r, by intro i _; rw [if_neg (by omega)], by simp⟩
  | succ k ih =>
    intro j s hle hbusy
    have hj : j < Config.opww := by omega
    let s1 : State := { s.setReg r (setOperandWord (s.reg r) j (operandWord v j)) with
      response := some .writeOk }
    have hstep : stepEvent (.write (operandOffset r j) 32 (operandWord v j)) s = .next s1 := by
      simp only [stepEvent]
      rw [busWrite_legal (legalAccess_operandOffset r hj), locate_operandOffset r hj,
        writeReg_operand_idle hr hbusy]
    have hreg : s1.reg r = setOperandWord (s.reg r) j (operandWord v j) := setReg_reg_same _ _ _
    obtain ⟨x, hx, hrun⟩ := ih (j + 1) s1 (by omega) hbusy
    refine ⟨x, ?_, ?_⟩
    · intro i hi
      rw [hx i hi, hreg, operandWord_setOperandWord _ hj]
      by_cases h1 : i = j
      · subst h1
        simp
      · by_cases h2 : j + 1 ≤ i ∧ i < j + 1 + k
        · rw [if_pos h2, if_pos (by omega)]
        · rw [if_neg h2, if_neg h1, if_neg (by omega)]
    · rw [List.range'_succ, List.map_cons, List.cons_append, runEvents, hstep]
      simp only
      rw [hrun]
      congr 1
      cases k with
      | zero =>
        simp only [if_true, Nat.reduceAdd, if_neg Nat.one_ne_zero]
        have hxr : x = s1.reg r := operand_ext fun i hi => by rw [hx i hi, if_neg (by omega)]
        rw [hxr, hreg]
      | succ m =>
        simp only [if_neg (Nat.succ_ne_zero _)]
        simp [s1, State.setReg]

/-- A host variable holds what was last assigned to it (30_encoding.md R88). -/
@[simp] theorem getVar_setVar (h : Hosted) (x : HostVar) (v : Operand) : (h.setVar x v).getVar x = v := by
  simp [Hosted.getVar, Hosted.setVar]

end Sys2Proof.Machine
end

