-- ==== Sys2Proof/Laws/Ecc.lean ====
section
/-! SUPPORT. The elliptic-curve cores over Z/NZ: what they answer, and that it is on the curve
(44_ecc.md R161 to R163, R167). -/

namespace Sys2Proof.Machine

/-- Curve membership is the equation in Z/NZ (R161). -/
theorem onCurve_iff (n a b x y : Nat) :
    onCurve n a b x y = true ↔
      (y : ZMod n) ^ 2 = (x : ZMod n) ^ 3 + (a : ZMod n) * (x : ZMod n) + (b : ZMod n) := by
  unfold onCurve
  rw [decide_eq_true_eq, ← Int.dvd_iff_emod_eq_zero, ← ZMod.intCast_zmod_eq_zero_iff_dvd]
  push_cast
  exact sub_eq_zero

/-- What the doubling core answers when it succeeds (R162): for an inverse b of 2y, the slope is
(3x² + a)·b and the point follows from it, all in Z/NZ and below n. -/
theorem dblCore_ok {n a : Nat} (hn : 0 < n) {p r : Nat × Nat} (h : dblCore n a p = .ok r) :
    p.2 ≠ 0 ∧ Nat.gcd (2 * p.2 % n) n = 1 ∧ r.1 < n ∧ r.2 < n ∧
      ∃ slope : ZMod n, slope * (2 * p.2) = 3 * (p.1 : ZMod n) ^ 2 + a ∧
        (r.1 : ZMod n) = slope ^ 2 - 2 * p.1 ∧ (r.2 : ZMod n) = slope * (p.1 - r.1) - p.2 := by
  unfold dblCore at h
  simp only at h
  split at h
  · cases h
  · next hy =>
    split at h
    · cases h
    · next hg =>
      have hg' : Nat.gcd (2 * p.2 % n) n = 1 := not_not.mp hg
      have hinv := invMod_zmod (2 * p.2 % n) hn hg'
      rw [ZMod.natCast_mod] at hinv
      push_cast at hinv
      cases h
      refine ⟨hy, hg', modInt_lt _ hn, modInt_lt _ hn,
        (3 * (p.1 : ZMod n) ^ 2 + a) * invMod (2 * p.2 % n) n, ?_, ?_, ?_⟩
      · linear_combination (3 * (p.1 : ZMod n) ^ 2 + a) * hinv
      · simp only [modInt_zmod _ hn]
        push_cast
        simp only [modInt_zmod _ hn]
        push_cast
        rfl
      · simp only [modInt_zmod _ hn]
        push_cast
        simp only [modInt_zmod _ hn]
        push_cast
        simp only [modInt_zmod _ hn]
        push_cast
        rfl

/-- What the addition core answers when it succeeds (R163). -/
theorem addCore_ok {n : Nat} (hn : 0 < n) {p q r : Nat × Nat} (h : addCore n p q = .ok r) :
    p.1 ≠ q.1 ∧ IsUnit ((q.1 : ZMod n) - p.1) ∧ r.1 < n ∧ r.2 < n ∧
      ∃ slope : ZMod n, slope * (q.1 - p.1) = (q.2 : ZMod n) - p.2 ∧
        (r.1 : ZMod n) = slope ^ 2 - p.1 - q.1 ∧ (r.2 : ZMod n) = -p.2 + slope * (p.1 - r.1) := by
  unfold addCore at h
  simp only at h
  split at h
  · split at h <;> cases h
  · next hx =>
    split at h
    · cases h
    · next hg =>
      have hinv := invMod_zmod (modInt ((q.1 : Int) - p.1) n) hn (not_not.mp hg)
      rw [modInt_zmod _ hn] at hinv
      push_cast at hinv
      cases h
      refine ⟨hx, IsUnit.of_mul_eq_one _ hinv, modInt_lt _ hn, modInt_lt _ hn,
        ((q.2 : ZMod n) - p.2) * invMod (modInt ((q.1 : Int) - p.1) n) n, ?_, ?_, ?_⟩
      · linear_combination ((q.2 : ZMod n) - p.2) * hinv
      · simp only [modInt_zmod _ hn]
        push_cast
        simp only [modInt_zmod _ hn]
        push_cast
        rfl
      · simp only [modInt_zmod _ hn]
        push_cast
        simp only [modInt_zmod _ hn]
        push_cast
        simp only [modInt_zmod _ hn]
        push_cast
        rfl

/-- A tangent meets the curve again on the curve: the algebra of doubling, over any commutative ring. -/
theorem tangent_onCurve {K : Type} [CommRing K] {a b x y s : K} (hp : y ^ 2 = x ^ 3 + a * x + b)
    (hs : s * (2 * y) = 3 * x ^ 2 + a) :
    (s * (x - (s ^ 2 - 2 * x)) - y) ^ 2 = (s ^ 2 - 2 * x) ^ 3 + a * (s ^ 2 - 2 * x) + b := by
  linear_combination hp + (s ^ 2 - 3 * x) * hs

/-- A chord meets the curve again on the curve: the algebra of addition, over any commutative ring in
which the difference of the x coordinates is a unit. -/
theorem chord_onCurve {K : Type} [CommRing K] {a b x y x' y' s : K} (hp : y ^ 2 = x ^ 3 + a * x + b)
    (hq : y' ^ 2 = x' ^ 3 + a * x' + b) (hu : IsUnit (x' - x)) (hs : s * (x' - x) = y' - y) :
    (-y + s * (x - (s ^ 2 - x - x'))) ^ 2 =
      (s ^ 2 - x - x') ^ 3 + a * (s ^ 2 - x - x') + b := by
  have hy' : y' = y + s * (x' - x) := by linear_combination -hs
  subst hy'
  have hkey : a = s * (2 * y + s * (x' - x)) - (x ^ 2 + x * x' + x' ^ 2) := by
    have h : (x' - x) * a = (x' - x) * (s * (2 * y + s * (x' - x)) - (x ^ 2 + x * x' + x' ^ 2)) := by
      linear_combination hp - hq
    exact hu.mul_left_cancel h
  subst hkey
  linear_combination hp

/-- The doubling core keeps the curve (R169). -/
theorem dblCore_onCurve {n a b : Nat} (hn : 0 < n) {p r : Nat × Nat} (h : dblCore n a p = .ok r)
    (hp : onCurve n a b p.1 p.2 = true) : onCurve n a b r.1 r.2 = true := by
  obtain ⟨-, -, -, -, slope, hs, hx, hy⟩ := dblCore_ok hn h
  rw [onCurve_iff] at hp ⊢
  rw [hy, hx]
  exact tangent_onCurve hp hs

/-- The addition core keeps the curve (R169). -/
theorem addCore_onCurve {n a b : Nat} (hn : 0 < n) {p q r : Nat × Nat} (h : addCore n p q = .ok r)
    (hp : onCurve n a b p.1 p.2 = true) (hq : onCurve n a b q.1 q.2 = true) :
    onCurve n a b r.1 r.2 = true := by
  obtain ⟨-, hu, -, -, slope, hs, hx, hy⟩ := addCore_ok hn h
  rw [onCurve_iff] at hp hq ⊢
  rw [hy, hx]
  exact chord_onCurve hp hq hu hs

/-- The double-and-add loop keeps a property the cores keep (R167). -/
theorem smulLoop_keeps {n a e : Nat} {p : Nat × Nat} {Good : Nat × Nat → Prop}
    (hdbl : ∀ t r, Good t → dblCore n a t = .ok r → Good r)
    (hadd : ∀ t r, Good t → addCore n t p = .ok r → Good r) :
    ∀ i t r, Good t → smulLoop n a e p i t = .ok r → Good r := by
  intro i
  induction i with
  | zero =>
    intro t r ht h
    cases h
    exact ht
  | succ i ih =>
    intro t r ht h
    unfold smulLoop at h
    split at h
    · cases h
    · next t2 h2 =>
      have ht2 := hdbl t t2 ht h2
      split at h
      · split at h
        · cases h
        · next t3 h3 => exact ih t3 r (hadd t2 t3 ht2 h3) h
      · exact ih t2 r ht2 h

/-- Scalar multiplication keeps the curve (R169). -/
theorem smulCore_onCurve {n a b e : Nat} (hn : 0 < n) {p r : Nat × Nat} (h : smulCore n a e p = .ok r)
    (hp : onCurve n a b p.1 p.2 = true) : onCurve n a b r.1 r.2 = true :=
  smulLoop_keeps (Good := fun t => onCurve n a b t.1 t.2 = true)
    (fun _ _ ht hd => dblCore_onCurve hn hd ht) (fun _ _ ht ha => addCore_onCurve hn ha ht hp)
    _ _ _ hp h

/-- Scalar multiplication answers residues: both coordinates lie below n (R167). -/
theorem smulCore_lt {n a e : Nat} (hn : 0 < n) {p r : Nat × Nat} (h : smulCore n a e p = .ok r)
    (hp : p.1 < n ∧ p.2 < n) : r.1 < n ∧ r.2 < n :=
  smulLoop_keeps (Good := fun t => t.1 < n ∧ t.2 < n)
    (fun _ _ _ hd => ⟨(dblCore_ok hn hd).2.2.1, (dblCore_ok hn hd).2.2.2.1⟩)
    (fun _ _ _ ha => ⟨(addCore_ok hn ha).2.2.1, (addCore_ok hn ha).2.2.2.1⟩) _ _ _ hp h

/-- The loop of EC_SMUL as a fold over the bit numbers i − 1 down to 0 (R167). -/
theorem smulLoop_eq_fold (n a e : Nat) (p : Nat × Nat) : ∀ i t,
    smulLoop n a e p i t = (List.range i).reverse.foldlM (fun t j =>
      (dblCore n a t).bind fun t2 => if e / 2 ^ j % 2 = 1 then addCore n t2 p else .ok t2) t := by
  intro i
  induction i with
  | zero => intro t; rfl
  | succ i ih =>
    intro t
    rw [List.range_succ, List.reverse_append, List.reverse_singleton, List.singleton_append,
      List.foldlM_cons, smulLoop]
    cases dblCore n a t with
    | error err => rfl
    | ok t2 =>
      have hb : e.testBit i = true ↔ e / 2 ^ i % 2 = 1 := by simp [Nat.testBit_eq_decide_div_mod_eq]
      simp only [Except.bind, hb]
      split
      · cases addCore n t2 p with
        | error err => rfl
        | ok t3 => exact ih t3
      · exact ih t2

end Sys2Proof.Machine
end

