-- ==== Sys2Proof/Laws/EccGroup.lean ====
section
/-! SUPPORT. The laws of 44_ecc.md R169 that go beyond membership, proved of the cores: no slope lacks an inverse
on a prime N, P + Q = Q + P, 2·P is a doubling, and E·P is the E-fold sum in the group of the curve. -/

namespace Sys2Proof.Machine

/-! ### when a core succeeds -/

/-- The doubling core succeeds when y ≠ 0 and the denominator has an inverse (R162). -/
theorem dblCore_succeeds {n a : Nat} {p : Nat × Nat} (hy : p.2 ≠ 0) (hg : Nat.gcd (2 * p.2 % n) n = 1) :
    ∃ r, dblCore n a p = .ok r := by
  simp [dblCore, hy, hg]

/-- The addition core succeeds when the x coordinates differ by a number coprime to n (R163). -/
theorem addCore_succeeds {n : Nat} (hn : 0 < n) {p q : Nat × Nat} (hx : p.1 ≠ q.1)
    (hg : Int.gcd ((q.1 : Int) - p.1) n = 1) : ∃ r, addCore n p q = .ok r := by
  simp [addCore, hx, gcd_modInt _ hn, hg]

/-- A success of the addition core had a denominator coprime to n (R163). -/
theorem addCore_coprime {n : Nat} (hn : 0 < n) {p q r : Nat × Nat} (h : addCore n p q = .ok r) :
    Int.gcd ((q.1 : Int) - p.1) n = 1 := by
  by_contra hg
  simp [addCore, (addCore_ok hn h).1, gcd_modInt _ hn, hg] at h

/-! ### NO_INVERSE on a prime N -/

/-- On an odd prime the doubling core finds every inverse it needs (R169). -/
theorem dblCore_prime {n a : Nat} (hp : n.Prime) (hodd : n % 2 = 1) {p : Nat × Nat} (hy : p.2 < n) :
    dblCore n a p ≠ .error .noInverseSlope := by
  intro h
  by_cases h0 : p.2 = 0
  · simp [dblCore, h0] at h
  · have hc : Nat.Coprime (2 * p.2) n := Nat.Coprime.mul_left
      (Nat.coprime_two_left.mpr (Nat.odd_iff.mpr hodd)) (Nat.coprime_of_lt_prime h0 hy hp).symm
    have hg : Nat.gcd (2 * p.2 % n) n = 1 := by rw [← Nat.gcd_rec, Nat.gcd_comm]; exact hc
    obtain ⟨r, hr⟩ := dblCore_succeeds (a := a) h0 hg
    rw [hr] at h
    cases h

/-- On a prime the addition core finds every inverse it needs (R169). -/
theorem addCore_prime {n : Nat} (hp : n.Prime) {p q : Nat × Nat} (h1 : p.1 < n) (h2 : q.1 < n) :
    addCore n p q ≠ .error .noInverseSlope := by
  intro h
  by_cases hx : p.1 = q.1
  · by_cases hy : p.2 = q.2 <;> simp [addCore, hx, hy] at h
  · have hg : Int.gcd ((q.1 : Int) - p.1) n = 1 :=
      (Nat.coprime_of_lt_prime (by omega) (by omega) hp).symm
    obtain ⟨r, hr⟩ := addCore_succeeds hp.pos hx hg
    rw [hr] at h
    cases h

/-- So does every core call of a scalar multiplication (R169). -/
theorem smulLoop_prime {n a e : Nat} (hp : n.Prime) (hodd : n % 2 = 1) {p : Nat × Nat} (hl : p.1 < n) :
    ∀ i t, t.1 < n ∧ t.2 < n → smulLoop n a e p i t ≠ .error .noInverseSlope := by
  intro i
  induction i with
  | zero => intro t _ h; cases h
  | succ i ih =>
    intro t ht h
    unfold smulLoop at h
    split at h
    · next h' => cases h; exact dblCore_prime hp hodd ht.2 h'
    · next t2 hd =>
      obtain ⟨-, -, l1, l2, -⟩ := dblCore_ok hp.pos hd
      split at h
      · split at h
        · next h' => cases h; exact addCore_prime hp l1 hl h'
        · next t3 ha =>
          obtain ⟨-, -, m1, m2, -⟩ := addCore_ok hp.pos ha
          exact ih t3 ⟨m1, m2⟩ h
      · exact ih t2 ⟨l1, l2⟩ h

/-- The three cores on a curve of R169: none reports NO_INVERSE/2 on points below N. -/
theorem EllipticDomain.never_noInverse {s : State} (hs : EllipticDomain s) {p q : Nat × Nat}
    (hp : p.1 < s.val .n ∧ p.2 < s.val .n) (hq : q.1 < s.val .n) (e : Nat) :
    dblCore (s.val .n) (s.val .ca) p ≠ .error .noInverseSlope ∧
      addCore (s.val .n) p q ≠ .error .noInverseSlope ∧
      smulCore (s.val .n) (s.val .ca) e p ≠ .error .noInverseSlope :=
  ⟨dblCore_prime hs.1 hs.2.1 hp.2, addCore_prime hs.1 hp.1 hq, smulLoop_prime hs.1 hs.2.1 hp.1 _ _ hp⟩

/-! ### P + Q = Q + P, and 2·P -/

/-- Addition is symmetric (R169): with the points exchanged it succeeds too, with the same point. -/
theorem addCore_comm {n : Nat} (hn : 0 < n) {p q r : Nat × Nat} (h : addCore n p q = .ok r) :
    addCore n q p = .ok r := by
  obtain ⟨hx, -, l1, l2, slope, hs, hx1, hy1⟩ := addCore_ok hn h
  have hg : Int.gcd ((p.1 : Int) - q.1) n = 1 := by
    rw [← addCore_coprime hn h, ← Int.neg_gcd, neg_sub]
  obtain ⟨r', hr'⟩ := addCore_succeeds hn (Ne.symm hx) hg
  obtain ⟨-, hu, m1, m2, slope', hs', hx2, hy2⟩ := addCore_ok hn hr'
  have hsl : slope' = slope := by
    refine hu.mul_right_cancel ?_
    linear_combination hs' + hs
  have e1 : (r'.1 : ZMod n) = r.1 := by rw [hx1, hx2, hsl]; ring
  have e2 : (r'.2 : ZMod n) = r.2 := by rw [hy1, hy2, hsl, e1]; linear_combination hs
  rw [ZMod.natCast_eq_natCast_iff] at e1 e2
  rw [hr', Prod.ext (e1.eq_of_lt_of_lt m1 l1) (e2.eq_of_lt_of_lt m2 l2)]

/-- Multiplication by 2 is one doubling (R169). -/
theorem smulCore_two (n a : Nat) (p : Nat × Nat) : smulCore n a 2 p = dblCore n a p := by
  have h : Nat.log2 2 = 1 := by decide
  simp only [smulCore, h, smulLoop]
  cases dblCore n a p <;> rfl

/-! ### the group of the curve -/

section group

open WeierstrassCurve.Affine

variable {n : Nat} [hpr : Fact n.Prime] {W : WeierstrassCurve.Affine (ZMod n)}

/-- The doubling core is P + P in the group (R162). -/
theorem dblCore_group {a : Nat} (w1 : W.a₁ = 0) (w2 : W.a₂ = 0) (w3 : W.a₃ = 0) (w4 : W.a₄ = a)
    {p r : Nat × Nat} (h : dblCore n a p = .ok r) (hp : W.Nonsingular p.1 p.2) :
    ∃ hr : W.Nonsingular r.1 r.2, Point.some _ _ hp + Point.some _ _ hp = Point.some _ _ hr := by
  obtain ⟨-, hg, -, -, slope, hs, hx, hy⟩ := dblCore_ok hpr.out.pos h
  have hinv := invMod_zmod _ hpr.out.pos hg
  rw [ZMod.natCast_mod] at hinv
  push_cast at hinv
  have hne : (2 * p.2 : ZMod n) ≠ 0 := left_ne_zero_of_mul_eq_one hinv
  have hyne : (p.2 : ZMod n) ≠ W.negY p.1 p.2 := by
    simp only [negY, w1, w3]
    intro h
    exact hne (by linear_combination h)
  have hsl : W.slope p.1 p.1 p.2 p.2 = slope := by
    rw [slope_of_Y_ne rfl hyne]
    simp only [negY, w1, w2, w3, w4]
    rw [div_eq_iff (by intro h; exact hne (by linear_combination h))]
    linear_combination -hs
  have e1 : W.addX p.1 p.1 (W.slope p.1 p.1 p.2 p.2) = r.1 := by
    rw [hsl, addX, w1, w2, hx]
    ring
  have e2 : W.addY p.1 p.1 p.2 (W.slope p.1 p.1 p.2 p.2) = r.2 := by
    rw [hsl] at e1 ⊢
    rw [addY, negAddY, e1, negY, w1, w3, hy]
    ring
  have hxy : ¬ ((p.1 : ZMod n) = p.1 ∧ (p.2 : ZMod n) = W.negY p.1 p.2) := fun h => hyne h.2
  have hr := nonsingular_add hp hp hxy
  rw [e1, e2] at hr
  refine ⟨hr, ?_⟩
  rw [Point.add_some hxy]
  congr

/-- The addition core is P + Q in the group (R163). -/
theorem addCore_group {p q r : Nat × Nat} (w1 : W.a₁ = 0) (w2 : W.a₂ = 0) (w3 : W.a₃ = 0)
    (h : addCore n p q = .ok r) (hp : W.Nonsingular p.1 p.2) (hq : W.Nonsingular q.1 q.2) :
    ∃ hr : W.Nonsingular r.1 r.2, Point.some _ _ hp + Point.some _ _ hq = Point.some _ _ hr := by
  obtain ⟨-, hu, -, -, slope, hs, hx, hy⟩ := addCore_ok hpr.out.pos h
  have hne : (p.1 : ZMod n) ≠ q.1 := fun h => hu.ne_zero (by rw [h, sub_self])
  have hsl : W.slope p.1 q.1 p.2 q.2 = slope := by
    rw [slope_of_X_ne hne, div_eq_iff (sub_ne_zero.mpr hne)]
    linear_combination hs
  have e1 : W.addX p.1 q.1 (W.slope p.1 q.1 p.2 q.2) = r.1 := by
    rw [hsl, addX, w1, w2, hx]
    ring
  have e2 : W.addY p.1 q.1 p.2 (W.slope p.1 q.1 p.2 q.2) = r.2 := by
    rw [hsl] at e1 ⊢
    rw [addY, negAddY, e1, negY, w1, w3, hy]
    ring
  have hxy : ¬ ((p.1 : ZMod n) = q.1 ∧ (p.2 : ZMod n) = W.negY q.1 q.2) := fun h => hne h.1
  have hr := nonsingular_add hp hq hxy
  rw [e1, e2] at hr
  refine ⟨hr, ?_⟩
  rw [Point.add_some hxy]
  congr

/-- The loop of EC_SMUL in the group (R167): started at the multiple the bits above i give, it ends at E·P. -/
theorem smulLoop_group {a e : Nat} (w1 : W.a₁ = 0) (w2 : W.a₂ = 0) (w3 : W.a₃ = 0) (w4 : W.a₄ = a)
    {p : Nat × Nat} (hp : W.Nonsingular p.1 p.2) : ∀ i t r,
    (∃ ht : W.Nonsingular t.1 t.2, (e / 2 ^ i) • Point.some _ _ hp = Point.some _ _ ht) →
    smulLoop n a e p i t = .ok r →
    ∃ hr : W.Nonsingular r.1 r.2, e • Point.some _ _ hp = Point.some _ _ hr := by
  intro i
  induction i with
  | zero => intro t r ht h; cases h; simpa using ht
  | succ i ih =>
    intro t r ⟨hT, ht⟩ h
    have hdiv : e / 2 ^ (i + 1) = e / 2 ^ i / 2 := by rw [pow_succ, Nat.div_div_eq_div_mul]
    have hbit : e.testBit i = true ↔ e / 2 ^ i % 2 = 1 := by simp [Nat.testBit_eq_decide_div_mod_eq]
    unfold smulLoop at h
    split at h
    · cases h
    · next t2 h2 =>
      obtain ⟨hT2, he2⟩ := dblCore_group w1 w2 w3 w4 h2 hT
      rw [← ht, ← two_nsmul, ← mul_nsmul] at he2
      split at h
      · next hb =>
        have hb := hbit.mp hb
        split at h
        · cases h
        · next t3 h3 =>
          obtain ⟨hT3, he3⟩ := addCore_group w1 w2 w3 h3 hT2 hp
          refine ih t3 r ⟨hT3, ?_⟩ h
          rw [← he3, ← he2, ← succ_nsmul]
          congr 1
          omega
      · next hb =>
        have hb := mt hbit.mpr hb
        refine ih t2 r ⟨hT2, ?_⟩ h
        rw [← he2]
        congr 1
        omega

/-- On a curve with nonzero discriminant a successful scalar multiplication by e ≥ 1 is the e-fold sum (R169). -/
theorem smulCore_group {a b e : Nat} (w1 : W.a₁ = 0) (w2 : W.a₂ = 0) (w3 : W.a₃ = 0) (w4 : W.a₄ = a)
    (w6 : W.a₆ = b) (hd : W.Δ ≠ 0) (he : e ≠ 0) {p r : Nat × Nat} (hp : onCurve n a b p.1 p.2 = true)
    (h : smulCore n a e p = .ok r) :
    ∃ (hp : W.Nonsingular p.1 p.2) (hr : W.Nonsingular r.1 r.2),
      e • Point.some _ _ hp = Point.some _ _ hr := by
  have hns : W.Nonsingular p.1 p.2 := by
    rw [← equation_iff_nonsingular_of_Δ_ne_zero hd, equation_iff, w1, w2, w3, w4, w6]
    simpa using (onCurve_iff n a b p.1 p.2).mp hp
  have htop : e / 2 ^ Nat.log2 e = 1 := by
    have h1 := Nat.log2_self_le he
    have h2 := Nat.lt_log2_self (n := e)
    rw [pow_succ] at h2
    exact Nat.div_eq_of_lt_le (by omega) (by omega)
  exact ⟨hns, smulLoop_group w1 w2 w3 w4 hns _ _ _ ⟨hns, by rw [htop, one_nsmul]⟩ h⟩

end group

/-- On a curve of R169 the discriminant is not 0. -/
theorem EllipticDomain.discriminant {s : State} (hs : EllipticDomain s)
    {W : WeierstrassCurve.Affine (ZMod (s.val .n))} (w1 : W.a₁ = 0) (w2 : W.a₂ = 0) (w3 : W.a₃ = 0)
    (w4 : W.a₄ = s.val .ca) (w6 : W.a₆ = s.val .cb) : W.Δ ≠ 0 := by
  obtain ⟨hp, hodd, -, -, hd⟩ := hs
  have hpr : Fact (s.val .n).Prime := ⟨hp⟩
  have hv : W.Δ = -((16 : Nat) : ZMod (s.val .n)) *
      ((4 * s.val .ca ^ 3 + 27 * s.val .cb ^ 2 : Nat) : ZMod (s.val .n)) := by
    simp only [WeierstrassCurve.Δ, WeierstrassCurve.b₂, WeierstrassCurve.b₄, WeierstrassCurve.b₆,
      WeierstrassCurve.b₈, w1, w2, w3, w4, w6]
    push_cast
    ring
  rw [hv]
  refine mul_ne_zero (neg_ne_zero.mpr ?_) ?_
  · rw [Ne, ZMod.natCast_eq_zero_iff]
    intro h16
    have := (Nat.prime_dvd_prime_iff_eq hp Nat.prime_two).mp
      (hp.dvd_of_dvd_pow (show s.val .n ∣ 2 ^ 4 from h16))
    omega
  · rwa [Ne, ZMod.natCast_eq_zero_iff, Nat.dvd_iff_mod_eq_zero]

end Sys2Proof.Machine
end

