-- ==== Sys2Proof/Laws/Exec.lean ====
section
/-! SUPPORT. What the shared completions, the cores and `exec` can do, said once. -/

namespace Sys2Proof.Machine

/-! ### the list of checks -/

theorem firstError_cons (fails : Bool) (err : CmdError) (rest : List Check) :
    firstError ((fails, err) :: rest) = if fails then some err else firstError rest := rfl

@[simp] theorem firstError_nil : firstError [] = none := rfl

/-- Every check passes exactly when none is reported. -/
theorem firstError_none_iff (cs : List Check) : firstError cs = none ↔ ∀ c ∈ cs, c.1 = false := by
  induction cs with
  | nil => simp
  | cons c rest ih =>
    obtain ⟨fails, err⟩ := c
    cases fails <;> simp [firstError_cons, ih]

/-- A reported error is one of the list's. -/
theorem firstError_mem {cs : List Check} {err : CmdError} (h : firstError cs = some err) :
    err ∈ cs.map Prod.snd := by
  induction cs with
  | nil => simp at h
  | cons c rest ih =>
    obtain ⟨fails, e⟩ := c
    cases fails
    · simp only [firstError_cons, Bool.false_eq_true, if_false] at h
      exact List.mem_cons_of_mem _ (ih h)
    · simp only [firstError_cons, if_true, Option.some.injEq] at h
      simp [h]

/-- The modulus check passes exactly for an odd N that is large enough (R100, R141). -/
theorem checkOddMod_passes (s : State) (least : Nat) :
    (checkOddMod s least).1 = false ↔ s.val .n % 2 = 1 ∧ least ≤ s.val .n := by
  simp [checkOddMod]

/-- A residue operand's check passes exactly when it lies below N (R100). -/
theorem checkBelow_passes (s : State) (r : Reg) (err : CmdError) :
    (checkBelow s r err).1 = false ↔ s.val r < s.val .n := by
  simp [checkBelow]

/-! ### the Montgomery radix -/

/-- Multiplying by Rinv and then by R = 2^OPW gives the number back modulo an odd N (R100). -/
theorem radixInv_spec (a : Nat) {n : Nat} (hn : 0 < n) (hodd : n % 2 = 1) :
    a * radixInv n % n * 2 ^ Config.opw ≡ a [MOD n] := by
  have hi := invMod_spec (Config.radix % n) hn (radix_coprime hodd)
  calc a * radixInv n % n * Config.radix ≡ a * radixInv n * (Config.radix % n) [MOD n] :=
        Nat.ModEq.mul (Nat.mod_modEq _ _) (Nat.mod_modEq _ _).symm
    _ = a * (Config.radix % n * radixInv n) := by ring
    _ ≡ a * 1 [MOD n] := Nat.ModEq.mul_left _ hi
    _ = a := by ring

/-! ### the shared completions -/

/-- A completion with one value raises the first failing check or returns the value. -/
theorem completeOne_cases (s : State) (cs : List Check) (v : Nat) :
    (∃ err, firstError cs = some err ∧ s.completeOne cs v = s.raise err) ∨
      (firstError cs = none ∧ s.completeOne cs v = s.returnOne v) := by
  unfold State.completeOne
  cases firstError cs with
  | none => exact .inr ⟨rfl, rfl⟩
  | some err => exact .inl ⟨err, rfl, rfl⟩

/-- A completion with a point raises the first failing check, else the error its computation met, or
returns the point. -/
theorem completePoint_cases (s : State) (cs : List Check) (v : Except CmdError (Nat × Nat)) :
    (∃ err, firstError cs = some err ∧ s.completePoint cs v = s.raise err) ∨
      (∃ err, firstError cs = none ∧ v = .error err ∧ s.completePoint cs v = s.raise err) ∨
      (∃ p, firstError cs = none ∧ v = .ok p ∧ s.completePoint cs v = s.returnPoint p) := by
  unfold State.completePoint
  cases firstError cs with
  | some err => exact .inl ⟨err, rfl, rfl⟩
  | none =>
    cases v with
    | error err => exact .inr (.inl ⟨err, rfl, rfl, rfl⟩)
    | ok p => exact .inr (.inr ⟨p, rfl, rfl, rfl⟩)

/-! ### the elliptic-curve cores -/

/-- The errors of the doubling core (R162). -/
theorem dblCore_error {n a : Nat} {p : Nat × Nat} {err : CmdError} (h : dblCore n a p = .error err) :
    err = .doubleZeroY ∨ err = .noInverseSlope := by
  unfold dblCore at h
  simp only at h
  split at h
  · exact .inl (Except.error.inj h).symm
  · split at h
    · exact .inr (Except.error.inj h).symm
    · cases h

/-- The errors of the addition core (R163). -/
theorem addCore_error {n : Nat} {p q : Nat × Nat} {err : CmdError} (h : addCore n p q = .error err) :
    err = .addOpposite ∨ err = .addSame ∨ err = .noInverseSlope := by
  unfold addCore at h
  simp only at h
  split at h
  · split at h
    · exact .inl (Except.error.inj h).symm
    · exact .inr (.inl (Except.error.inj h).symm)
  · split at h
    · exact .inr (.inr (Except.error.inj h).symm)
    · cases h

/-- The errors of the double-and-add loop are those of its core calls (R167). -/
theorem smulLoop_error {n a e : Nat} {p : Nat × Nat} {err : CmdError} :
    ∀ {i t}, smulLoop n a e p i t = .error err →
      err = .doubleZeroY ∨ err = .noInverseSlope ∨ err = .addOpposite ∨ err = .addSame := by
  intro i
  induction i with
  | zero => intro t h; cases h
  | succ i ih =>
    intro t h
    unfold smulLoop at h
    split at h
    · next e1 h1 =>
      cases h
      rcases dblCore_error h1 with rfl | rfl <;> simp
    · split at h
      · split at h
        · next e1 h1 =>
          cases h
          rcases addCore_error h1 with rfl | rfl | rfl <;> simp
        · exact ih h
      · exact ih h

/-! ### the rounds of MR_TEST -/

/-- MR_TEST runs at least one and at most the asked rounds; fewer only with the verdict composite (R142). -/
theorem mrRounds_bounds (n : Nat) : ∀ left run port,
    run ≤ (mrRounds n left run port).2.1 ∧ (mrRounds n left run port).2.1 ≤ run + left ∧
      (0 < left → run < (mrRounds n left run port).2.1) ∧
      ((mrRounds n left run port).1 = true → (mrRounds n left run port).2.1 = run + left) := by
  intro left
  induction left with
  | zero => intro run port; simp [mrRounds]
  | succ k ih =>
    intro run port
    unfold mrRounds
    split
    · have := ih (run + 1) (port.draw 2 (n - 2)).2
      refine ⟨by omega, by omega, fun _ => by omega, fun h => ?_⟩
      have := this.2.2.2 h
      omega
    · simp

/-! ### `exec` -/

/-- What a completion of MR_TEST leaves. -/
def State.afterTest (s : State) (rounds : Nat) : State :=
  let r := mrRounds (s.val .n) rounds 0 s.rng
  { s.returnTest (boolValue r.1) r.2.1 with rng := r.2.2 }

theorem execMrTest_eq (rounds : Nat) (s : State) :
    execMrTest rounds s =
      match firstError [checkOddMod s 5, (decide (rounds = 0), .roundsZero)] with
      | some err => .next (s.raise err)
      | none => .next (s.afterTest rounds) := rfl

/-- Everything a completion can do (10_state.md R40, R23; 60_exceptions.md R203, R205): it raises one of the
command's errors, returns one value, returns a point, or, for MR_TEST, a verdict and a count. -/
theorem exec_cases (i : Instr) (s : State) :
    (∃ err ∈ errorsOf i, exec i s = .next (s.raise err)) ∨
      (∃ v, writesOf i = [.res0] ∧ (∀ k, i ≠ .mrTest k) ∧ exec i s = .next (s.returnOne v)) ∨
      (∃ p, writesOf i = [.res0, .res1] ∧ (∀ k, i ≠ .mrTest k) ∧ exec i s = .next (s.returnPoint p)) ∨
      (∃ k, i = .mrTest k ∧ 0 < k ∧ exec i s = .next (s.afterTest k)) := by
  have one : ∀ (cs : List Check) (v : Nat), cs.map Prod.snd = errorsOf i → writesOf i = [.res0] →
      (∀ k, i ≠ .mrTest k) → exec i s = .next (s.completeOne cs v) →
      (∃ err ∈ errorsOf i, exec i s = .next (s.raise err)) ∨
      (∃ v, writesOf i = [.res0] ∧ (∀ k, i ≠ .mrTest k) ∧ exec i s = .next (s.returnOne v)) := by
    intro cs v hcs hw ht hx
    rcases completeOne_cases s cs v with ⟨err, he, hs⟩ | ⟨-, hs⟩
    · exact .inl ⟨err, hcs ▸ firstError_mem he, by rw [hx, hs]⟩
    · exact .inr ⟨v, hw, ht, by rw [hx, hs]⟩
  have point : ∀ (cs : List Check) (v : Except CmdError (Nat × Nat)),
      (∀ err ∈ cs.map Prod.snd, err ∈ errorsOf i) → (∀ err, v = .error err → err ∈ errorsOf i) →
      writesOf i = [.res0, .res1] → (∀ k, i ≠ .mrTest k) → exec i s = .next (s.completePoint cs v) →
      (∃ err ∈ errorsOf i, exec i s = .next (s.raise err)) ∨
      (∃ p, writesOf i = [.res0, .res1] ∧ (∀ k, i ≠ .mrTest k) ∧ exec i s = .next (s.returnPoint p)) := by
    intro cs v hcs hv hw ht hx
    rcases completePoint_cases s cs v with ⟨err, he, hs⟩ | ⟨err, -, he, hs⟩ | ⟨p, -, -, hs⟩
    · exact .inl ⟨err, hcs _ (firstError_mem he), by rw [hx, hs]⟩
    · exact .inl ⟨err, hv _ he, by rw [hx, hs]⟩
    · exact .inr ⟨p, hw, ht, by rw [hx, hs]⟩
  cases i with
  | modmul k => rcases one _ _ rfl rfl (by simp) rfl with h | h <;> simp only [h, true_or, or_true]
  | montmul k => rcases one _ _ rfl rfl (by simp) rfl with h | h <;> simp only [h, true_or, or_true]
  | montTo k => rcases one _ _ rfl rfl (by simp) rfl with h | h <;> simp only [h, true_or, or_true]
  | montFrom k => rcases one _ _ rfl rfl (by simp) rfl with h | h <;> simp only [h, true_or, or_true]
  | modexp k => rcases one _ _ rfl rfl (by simp) rfl with h | h <;> simp only [h, true_or, or_true]
  | modinv k => rcases one _ _ rfl rfl (by simp) rfl with h | h <;> simp only [h, true_or, or_true]
  | mrRound k => rcases one _ _ rfl rfl (by simp) rfl with h | h <;> simp only [h, true_or, or_true]
  | ecCheck k => rcases one _ _ rfl rfl (by simp) rfl with h | h <;> simp only [h, true_or, or_true]
  | mrTest k =>
    by_cases hk : k = 0
    · left
      rcases hf : firstError [checkOddMod s 5, (decide (k = 0), .roundsZero)] with _ | err
      · have := (firstError_none_iff _).mp hf (decide (k = 0), .roundsZero) (by simp)
        simp [hk] at this
      · refine ⟨err, firstError_mem hf, ?_⟩
        simp only [exec, execMrTest_eq, hf]
    · rcases hf : firstError [checkOddMod s 5, (decide (k = 0), .roundsZero)] with _ | err
      · refine .inr (.inr (.inr ⟨k, rfl, Nat.pos_of_ne_zero hk, ?_⟩))
        simp only [exec, execMrTest_eq, hf]
      · refine .inl ⟨err, firstError_mem hf, ?_⟩
        simp only [exec, execMrTest_eq, hf]
  | ecDbl k =>
    rcases point _ _ (by simp [checkOddMod, curveChecks, checkBelow, checkP, errorsOf])
      (fun err h => by rcases dblCore_error h with rfl | rfl <;> simp [errorsOf]) rfl (by simp) rfl
      with h | h <;> simp only [h, true_or, or_true]
  | ecAdd k =>
    rcases point _ _ (by simp [checkOddMod, curveChecks, checkBelow, checkP, checkQ, errorsOf])
      (fun err h => by rcases addCore_error h with rfl | rfl | rfl <;> simp [errorsOf]) rfl (by simp) rfl
      with h | h <;> simp only [h, true_or, or_true]
  | ecSmul k =>
    rcases point _ _ (by simp [checkOddMod, curveChecks, checkBelow, checkP, errorsOf])
      (fun err h => by rcases smulLoop_error h with rfl | rfl | rfl | rfl <;> simp [errorsOf]) rfl
      (by simp) rfl
      with h | h <;> simp only [h, true_or, or_true]

/-- Every command answers a next state (60_exceptions.md R200). -/
theorem exec_next (i : Instr) (s : State) : ∃ t, exec i s = .next t := by
  rcases exec_cases i s with ⟨_, -, h⟩ | ⟨_, -, -, h⟩ | ⟨_, -, -, h⟩ | ⟨_, -, -, h⟩ <;> exact ⟨_, h⟩

end Sys2Proof.Machine
end

