-- ==== Sys2Proof/Laws/MillerRabin.lean ====
section
/-! SUPPORT. The round predicate of 43_miller_rabin.md R140, and the draws of R142. -/

namespace Sys2Proof.Machine

/-- The squaring loop passes exactly when one of its squares is n − 1 (R140). -/
theorem mrSquares_iff (n : Nat) : ∀ count y,
    mrSquares n count y = true ↔ ∃ j, j < count ∧ y ^ (2 ^ (j + 1)) % n = n - 1 := by
  intro count
  induction count with
  | zero => intro y; simp [mrSquares]
  | succ c ih =>
    intro y
    have hpow : ∀ j, (y * y % n) ^ (2 ^ (j + 1)) % n = y ^ (2 ^ (j + 2)) % n := by
      intro j
      rw [← Nat.pow_mod, ← pow_two, ← pow_mul, ← pow_succ']
    unfold mrSquares
    split
    · next h =>
      simp only [true_iff]
      exact ⟨0, by omega, by simpa [pow_two] using h⟩
    · next h =>
      rw [ih]
      constructor
      · rintro ⟨j, hj, he⟩
        exact ⟨j + 1, by omega, by rw [← he, hpow]⟩
      · rintro ⟨j, hj, he⟩
        cases j with
        | zero => exact absurd (by simpa [pow_two] using he) h
        | succ i => exact ⟨i, by omega, by rw [hpow, he]⟩

/-- MRRound(n, a) = PASS exactly when a^q ≡ 1 or a^(2^j·q) ≡ n − 1 for some j < k (R140). -/
theorem mrPass_iff {n a k q : Nat} (hn : 5 ≤ n) (hlt : n < 2 ^ Config.opw)
    (hkq : n - 1 = 2 ^ k * q) (hq : q % 2 = 1) (hk : 0 < k) :
    mrPass n a = true ↔ a ^ q % n = 1 ∨ ∃ j, j < k ∧ a ^ (2 ^ j * q) % n = n - 1 := by
  have hs := splitTwos_spec Config.opw (n - 1) (by omega) (by omega)
  obtain ⟨h1, h2⟩ := two_pow_mul_odd_unique hs.2 hq (hs.1.symm.trans hkq)
  have hqlt : q < 2 ^ Config.opw := by
    have : q ≤ 2 ^ k * q := Nat.le_mul_of_pos_left _ (by positivity)
    omega
  have hpow : ∀ j, (a ^ q % n) ^ (2 ^ (j + 1)) % n = a ^ (2 ^ (j + 1) * q) % n := by
    intro j
    rw [← Nat.pow_mod, ← pow_mul, Nat.mul_comm]
  simp only [mrPass, h1, h2, powMod_eq _ _ _ hqlt, Bool.or_eq_true, decide_eq_true_eq, mrSquares_iff,
    hpow, or_assoc]
  refine or_congr_right ?_
  constructor
  · rintro (h | ⟨j, hj, he⟩)
    · exact ⟨0, hk, by simpa using h⟩
    · exact ⟨j + 1, by omega, he⟩
  · rintro ⟨j, hj, he⟩
    cases j with
    | zero => exact .inl (by simpa using he)
    | succ i => exact .inr ⟨i, by omega, he⟩

/-- A drawn value lies in its interval (00_scope.md R10). -/
theorem fitDraw_bounds {lo hi : Nat} (h : lo ≤ hi) (raw : Nat) :
    lo ≤ fitDraw lo hi raw ∧ fitDraw lo hi raw ≤ hi := by
  unfold fitDraw
  split
  · assumption
  · have := Nat.mod_lt raw (show 0 < hi - lo + 1 by omega)
    omega

/-- An answer in the interval is drawn as it is (00_scope.md R10). -/
theorem fitDraw_of_bounds {lo hi raw : Nat} (h : lo ≤ raw ∧ raw ≤ hi) : fitDraw lo hi raw = raw := by
  simp [fitDraw, h]

/-- A draw lies in [lo, hi], whatever the port holds (R142). -/
theorem draw_bounds {lo hi : Nat} (h : lo ≤ hi) (p : RngPort) :
    lo ≤ (p.draw lo hi).1 ∧ (p.draw lo hi).1 ≤ hi := by
  unfold RngPort.draw
  split <;> exact fitDraw_bounds h _

/-- A draw counts one (log entry 3). -/
theorem draw_taken (lo hi : Nat) (p : RngPort) : (p.draw lo hi).2.taken = p.taken + 1 := by
  unfold RngPort.draw
  split <;> rfl

/-- With a legal answer lined up, the draw is that answer and the rest stays (log entry 3). -/
theorem draw_queued {lo hi raw : Nat} (h : lo ≤ raw ∧ raw ≤ hi) (rest : List Nat) (taken : Nat) :
    RngPort.draw { queue := raw :: rest, taken := taken } lo hi =
      (raw, { queue := rest, taken := taken + 1 }) := by
  simp [RngPort.draw, fitDraw_of_bounds h]

/-- MR_TEST on legal answers that all pass: it takes them all (R142). -/
theorem mrRounds_pass (n : Nat) : ∀ (ds rest : List Nat) (run taken : Nat),
    (∀ a ∈ ds, 2 ≤ a ∧ a ≤ n - 2) → (∀ a ∈ ds, mrPass n a = true) →
    mrRounds n ds.length run { queue := ds ++ rest, taken := taken } =
      (true, run + ds.length, { queue := rest, taken := taken + ds.length }) := by
  intro ds
  induction ds with
  | nil => intro rest run taken _ _; rfl
  | cons a ds ih =>
    intro rest run taken hl hp
    rw [List.length_cons, mrRounds, List.cons_append, draw_queued (hl a (by simp))]
    simp only [hp a (by simp), if_true]
    rw [ih _ _ _ (fun b hb => hl b (by simp [hb])) (fun b hb => hp b (by simp [hb]))]
    simp
    omega

/-- MR_TEST on legal answers of which one proves n composite and those before it pass: it stops there
(R142). -/
theorem mrRounds_fail (n : Nat) : ∀ (ds rest : List Nat) (run taken i a : Nat),
    (∀ a ∈ ds, 2 ≤ a ∧ a ≤ n - 2) → ds[i]? = some a → mrPass n a = false →
    (∀ b ∈ ds.take i, mrPass n b = true) →
    mrRounds n ds.length run { queue := ds ++ rest, taken := taken } =
      (false, run + (i + 1), { queue := ds.drop (i + 1) ++ rest, taken := taken + (i + 1) }) := by
  intro ds
  induction ds with
  | nil => intro rest run taken i a _ h; simp at h
  | cons d ds ih =>
    intro rest run taken i a hl ha hf hp
    rw [List.length_cons, mrRounds, List.cons_append, draw_queued (hl d (by simp))]
    cases i with
    | zero =>
      simp only [List.length_cons, Nat.zero_lt_succ, getElem?_pos, List.getElem_cons_zero,
        Option.some.injEq] at ha
      subst ha
      simp [hf]
    | succ i =>
      simp only [hp d (by simp), if_true]
      rw [ih _ _ _ i a (fun b hb => hl b (by simp [hb])) (by simpa using ha) hf
        (fun b hb => hp b (by simp [hb]))]
      simp
      omega

/-- MR_TEST under every randomness source: the witnesses it drew, all legal, all but the last passing, and
the verdict they give (R142). -/
theorem mrRounds_any {n : Nat} (hn : 5 ≤ n) : ∀ (left run : Nat) (port : RngPort), ∃ ds : List Nat,
    (mrRounds n left run port).2.1 = run + ds.length ∧
      (mrRounds n left run port).2.2.taken = port.taken + ds.length ∧ ds.length ≤ left ∧
      (0 < left → 0 < ds.length) ∧ (∀ a ∈ ds, 2 ≤ a ∧ a ≤ n - 2) ∧
      (∀ a ∈ ds.dropLast, mrPass n a = true) ∧
      (((mrRounds n left run port).1 = true ∧ ds.length = left ∧ ∀ a ∈ ds, mrPass n a = true) ∨
        ((mrRounds n left run port).1 = false ∧ ∃ a, ds.getLast? = some a ∧ mrPass n a = false)) := by
  intro left
  induction left with
  | zero => intro run port; exact ⟨[], by simp [mrRounds]⟩
  | succ k ih =>
    intro run port
    have hb := draw_bounds (show 2 ≤ n - 2 by omega) port
    unfold mrRounds
    split
    · next hp =>
      obtain ⟨ds, h1, ht, h2, h3, h4, h5, h6⟩ := ih (run + 1) (port.draw 2 (n - 2)).2
      refine ⟨(port.draw 2 (n - 2)).1 :: ds, by rw [h1]; simp; omega,
        by rw [ht, draw_taken]; simp; omega, by simp; omega, by simp,
        ?_, ?_, ?_⟩
      · intro a ha
        rcases List.mem_cons.mp ha with rfl | ha
        exacts [hb, h4 a ha]
      · intro a ha
        cases ds with
        | nil => simp at ha
        | cons d ds =>
          rw [List.dropLast_cons_cons] at ha
          rcases List.mem_cons.mp ha with rfl | ha
          exacts [hp, h5 a ha]
      · rcases h6 with ⟨e1, e2, e3⟩ | ⟨e1, a, e2, e3⟩
        · refine .inl ⟨e1, by simp [e2], ?_⟩
          intro a ha
          rcases List.mem_cons.mp ha with rfl | ha
          exacts [hp, e3 a ha]
        · refine .inr ⟨e1, a, ?_, e3⟩
          cases ds with
          | nil => simp at e2
          | cons d ds => rw [List.getLast?_cons_cons]; exact e2
    · next hp =>
      exact ⟨[(port.draw 2 (n - 2)).1], by simp, by simp [draw_taken], by simp, by simp, by simpa using hb,
        by simp,
        .inr ⟨rfl, _, rfl, by simpa using hp⟩⟩

end Sys2Proof.Machine
end

