-- ==== Sys2Proof/Laws/PerInstr.lean ====
section
/-! SUPPORT. Statements made of every command, one lemma for each constructor. -/

namespace Sys2Proof.Laws

/-- The three fields of the word put together from a ROUNDS and an OPCODE byte (30_encoding.md R80). -/
theorem fields_of_word (rounds opcode : Nat) (hr : rounds < 256) (ho : opcode < 256) :
    opcodeField (0#16 ++ BitVec.ofNat 8 rounds ++ BitVec.ofNat 8 opcode) = opcode ∧
      roundsField (0#16 ++ BitVec.ofNat 8 rounds ++ BitVec.ofNat 8 opcode) = rounds ∧
      reservedField (0#16 ++ BitVec.ofNat 8 rounds ++ BitVec.ofNat 8 opcode) = 0 := by
  have hw : (0#16 ++ BitVec.ofNat 8 rounds ++ BitVec.ofNat 8 opcode).toNat = 256 * rounds + opcode := by
    simp only [BitVec.toNat_append, BitVec.toNat_ofNat, Nat.zero_mod, Nat.zero_shiftLeft, Nat.zero_or,
      Nat.mod_eq_of_lt hr, Nat.mod_eq_of_lt ho, Nat.reducePow]
    rw [← Nat.shiftLeft_add_eq_or_of_lt (by simpa using ho), Nat.shiftLeft_eq]
    omega
  refine ⟨?_, ?_, ?_⟩ <;>
    simp only [opcodeField, roundsField, reservedField, BitVec.extractLsb'_toNat, hw,
      Nat.shiftRight_eq_div_pow, Nat.reducePow] <;> omega

/-- A word that decodes holds the OPCODE and the ROUNDS of its command, and no reserved bit (R81). -/
theorem decode_ok {w : Word} {i : Instr} (h : decode w = .ok i) :
    i.opcode = opcodeField w ∧ i.rounds = roundsField w ∧ reservedField w = 0 := by
  unfold decode at h
  split at h
  · cases h
  · next hc =>
    split at h
    · next hr =>
      cases h
      unfold commandOf at hc
      split at hc <;> first | (cases hc; exact ⟨Eq.symm ‹_›, rfl, hr⟩) | cases hc
    · cases h

namespace EncodedFields

/-- A well-formed command's word holds its OPCODE, its ROUNDS and RSV = 0 in the fields of R80. -/
def Statement (i : Instr) : Prop :=
  i.WellFormed → opcodeField (encode i) = i.opcode ∧ roundsField (encode i) = i.rounds ∧
    reservedField (encode i) = 0

/-- The statement from the bound the check gives. -/
theorem of_bounds (i : Instr) (ho : i.opcode < 256) : Statement i := by
  intro h
  have hr : i.rounds ≤ 255 := of_decide_eq_true h
  exact fields_of_word _ _ (by omega) ho

theorem modmul (rounds : Nat) : Statement (.modmul rounds) := of_bounds _ (by simp [Instr.opcode])

theorem montmul (rounds : Nat) : Statement (.montmul rounds) := of_bounds _ (by simp [Instr.opcode])

theorem montTo (rounds : Nat) : Statement (.montTo rounds) := of_bounds _ (by simp [Instr.opcode])

theorem montFrom (rounds : Nat) : Statement (.montFrom rounds) := of_bounds _ (by simp [Instr.opcode])

theorem modexp (rounds : Nat) : Statement (.modexp rounds) := of_bounds _ (by simp [Instr.opcode])

theorem modinv (rounds : Nat) : Statement (.modinv rounds) := of_bounds _ (by simp [Instr.opcode])

theorem mrRound (rounds : Nat) : Statement (.mrRound rounds) := of_bounds _ (by simp [Instr.opcode])

theorem mrTest (rounds : Nat) : Statement (.mrTest rounds) := of_bounds _ (by simp [Instr.opcode])

theorem ecCheck (rounds : Nat) : Statement (.ecCheck rounds) := of_bounds _ (by simp [Instr.opcode])

theorem ecDbl (rounds : Nat) : Statement (.ecDbl rounds) := of_bounds _ (by simp [Instr.opcode])

theorem ecAdd (rounds : Nat) : Statement (.ecAdd rounds) := of_bounds _ (by simp [Instr.opcode])

theorem ecSmul (rounds : Nat) : Statement (.ecSmul rounds) := of_bounds _ (by simp [Instr.opcode])

end EncodedFields

end Sys2Proof.Laws
end

