-- ==== Sys2Proof/Laws/Step.lean ====
section
/-! SUPPORT. What one step can do: `unitStep`, `stepEvent` and `step`, each said once. -/

namespace Sys2Proof.Machine

/-- The unit's move on a running legal command is that command (10_state.md R40). -/
theorem unitStep_decoded {s : State} {i : Instr} (hb : s.busy = true) (hd : decode s.cmd = .ok i) :
    unitStep s = exec i s := by
  simp [unitStep, hb, hd]

/-- The unit's move on a running illegal command (30_encoding.md R81). -/
theorem unitStep_illegal {s : State} {why : IllegalWord} (hb : s.busy = true)
    (hd : decode s.cmd = .error why) : unitStep s = .next (s.raise (illegalError why)) := by
  simp [unitStep, hb, hd]

/-- While idle the unit has no step to take. -/
theorem unitStep_idle {s : State} (hb : s.busy = false) : unitStep s = .next s := by
  simp [unitStep, hb]

/-- Everything the unit's move can do. -/
theorem unitStep_cases (s : State) :
    (s.busy = false ∧ unitStep s = .next s) ∨
      (s.busy = true ∧ ∃ err, unitStep s = .next (s.raise err)) ∨
      (s.busy = true ∧ ∃ v, unitStep s = .next (s.returnOne v)) ∨
      (s.busy = true ∧ ∃ p, unitStep s = .next (s.returnPoint p)) ∨
      (s.busy = true ∧ ∃ k, 0 < k ∧ decode s.cmd = .ok (.mrTest k) ∧
        unitStep s = .next (s.afterTest k)) := by
  cases hb : s.busy with
  | false => exact .inl ⟨rfl, unitStep_idle hb⟩
  | true =>
    right
    cases hd : decode s.cmd with
    | error why => exact .inl ⟨rfl, _, unitStep_illegal hb hd⟩
    | ok i =>
      rw [unitStep_decoded hb hd]
      rcases exec_cases i s with ⟨err, -, h⟩ | ⟨v, -, -, h⟩ | ⟨p, -, -, h⟩ | ⟨k, hk, hpos, h⟩
      · exact .inl ⟨rfl, err, h⟩
      · exact .inr (.inl ⟨rfl, v, h⟩)
      · exact .inr (.inr (.inl ⟨rfl, p, h⟩))
      · exact .inr (.inr (.inr ⟨rfl, k, hpos, by rw [hk], h⟩))

/-- Everything a move can do: the unit's, a read, a refused write, a legal write, a reset. -/
theorem stepEvent_cases (ev : Event) (s : State) :
    (ev = .unit ∧ stepEvent ev s = unitStep s) ∨
      (∃ off width resp, ev = .read off width ∧
        stepEvent ev s = .next { s with response := some resp }) ∨
      (∃ off width data, ev = .write off width data ∧ legalAccess off width = false ∧
        stepEvent ev s = .next { s with response := some .writeError }) ∨
      (∃ off width data, ev = .write off width data ∧ legalAccess off width = true ∧
        stepEvent ev s =
          .next { writeReg data s (locate off.toNat) with response := some .writeOk }) ∨
      (ev = .hardwareReset ∧ stepEvent ev s = .next s.resetBlock) := by
  cases ev with
  | unit => exact .inl ⟨rfl, rfl⟩
  | read off width => exact .inr (.inl ⟨off, width, _, rfl, rfl⟩)
  | write off width data =>
    cases h : legalAccess off width with
    | false =>
      exact .inr (.inr (.inl ⟨off, width, data, rfl, h, by simp [stepEvent, busWrite_illegal h]⟩))
    | true =>
      exact .inr (.inr (.inr (.inl ⟨off, width, data, rfl, h, by simp [stepEvent, busWrite_legal h]⟩)))
  | hardwareReset => exact .inr (.inr (.inr (.inr ⟨rfl, rfl⟩)))

/-- No move stops the machine (60_exceptions.md R200). -/
theorem stepEvent_next (ev : Event) (s : State) : ∃ s', stepEvent ev s = .next s' := by
  rcases stepEvent_cases ev s with ⟨-, h⟩ | ⟨_, _, _, -, h⟩ | ⟨_, _, _, -, -, h⟩ | ⟨_, _, _, -, -, h⟩ |
    ⟨-, h⟩
  · rcases unitStep_cases s with ⟨-, h'⟩ | ⟨-, _, h'⟩ | ⟨-, _, h'⟩ | ⟨-, _, h'⟩ | ⟨-, _, -, -, h'⟩ <;>
      exact ⟨_, h.trans h'⟩
  all_goals exact ⟨_, h⟩

/-- A legal write leaves the moves still to come alone. -/
theorem writeReg_events (v : Word) (s : State) (at_ : WindowReg) : (writeReg v s at_).events = s.events := by
  rcases writeReg_cases v s at_ with h | ⟨-, -, h⟩ | ⟨-, -, h⟩ | ⟨-, h⟩ | ⟨-, h⟩ | ⟨-, -, h⟩ |
    ⟨_, _, -, -, -, h⟩ <;> rw [h] <;> simp

/-- No move changes the moves still to come. -/
theorem stepEvent_events {ev : Event} {s s' : State} (h : stepEvent ev s = .next s') :
    s'.events = s.events := by
  rcases stepEvent_cases ev s with ⟨-, e⟩ | ⟨_, _, _, -, e⟩ | ⟨_, _, _, -, -, e⟩ | ⟨_, _, _, -, -, e⟩ |
    ⟨-, e⟩ <;> rw [e] at h
  · rcases unitStep_cases s with ⟨-, u⟩ | ⟨-, _, u⟩ | ⟨-, _, u⟩ | ⟨-, _, u⟩ | ⟨-, _, -, -, u⟩ <;>
      · rw [u] at h
        cases h
        rfl
  · cases h
    rfl
  · cases h
    rfl
  · cases h
    exact writeReg_events _ _ _
  · cases h
    rfl

/-- A step with moves to come performs the first of them. -/
theorem step_cons {s : State} {ev : Event} {rest : List Event} (h : s.events = ev :: rest) :
    step s = stepEvent ev { s with events := rest } := by
  simp [step, h]

/-- A step with none to come is the unit's. -/
theorem step_nil {s : State} (h : s.events = []) : step s = unitStep s := by
  simp [step, h, stepEvent]

/-- No step stops the machine (60_exceptions.md R200). -/
theorem step_next (s : State) : ∃ s', step s = .next s' := by
  unfold step
  cases s.events with
  | nil => exact stepEvent_next _ _
  | cons ev rest => exact stepEvent_next _ _

/-- Moves in a row, the second list after the first. -/
theorem runEvents_append (l₁ l₂ : List Event) (s s' : State) (h : runEvents l₁ s = .next s') :
    runEvents (l₁ ++ l₂) s = runEvents l₂ s' := by
  induction l₁ generalizing s with
  | nil =>
    cases h
    rfl
  | cons ev rest ih =>
    obtain ⟨s1, h1⟩ := stepEvent_next ev s
    rw [runEvents, h1] at h
    rw [List.cons_append, runEvents, h1]
    exact ih s1 h

/-- Steps with moves to come perform them, as `runEvents` does. -/
theorem runEvents_next (l : List Event) (s : State) : ∃ s', runEvents l s = .next s' := by
  induction l generalizing s with
  | nil => exact ⟨s, rfl⟩
  | cons ev rest ih =>
    obtain ⟨s1, h1⟩ := stepEvent_next ev s
    obtain ⟨s2, h2⟩ := ih s1
    exact ⟨s2, by rw [runEvents, h1]; exact h2⟩

end Sys2Proof.Machine
end

