-- ==== Sys2Proof/Tests/Slice0.lean ====
section
/-! SUPPORT. The model's own tests: words written out from 30_encoding.md R80 and R85, one step on vectors of
95_test_vectors.md (each test names its section), and for every statement with hypotheses a named witness
that meets them. -/

namespace Sys2Proof.Tests

open Sys2Proof Sys2Proof.Machine Sys2Proof.Claims

/-- The reset state with some operand registers loaded. -/
def load (l : List (Reg × Nat)) : State :=
  l.foldl (fun s e => s.setReg e.1 (BitVec.ofNat Config.opw e.2)) State.reset

/-- The state one step leaves for a command word, from the reset state with operands loaded. -/
def after (w : Nat) (l : List (Reg × Nat)) : Option State :=
  match step ((load l).withFetchWord 32 w) with
  | .next t => some t
  | _ => none

/-- STATUS, RES0 and RES1 after one step. -/
def result (w : Nat) (l : List (Reg × Nat)) : Option (Nat × Nat × Nat) :=
  (after w l).map fun t => ((statusWord t).toNat, t.val .res0, t.val .res1)

/-- The curve and the point P of 95_test_vectors.md section 2.6. -/
def curve (px py : Nat) : List (Reg × Nat) :=
  [(.n, 23), (.ca, 1), (.cb, 1), (.px, px), (.py, py)]

/-! ### well-formedness: ROUNDS above 255 has no encoding (30_encoding.md R82) -/

theorem test_rounds_256_ill_formed : ¬ (Instr.mrTest 256).WellFormed := by decide

theorem test_rounds_255_well_formed : (Instr.mrTest 255).WellFormed := by decide

theorem test_rounds_checked_for_all : ¬ (Instr.modmul 256).WellFormed := by decide

/-! ### decoding: RSV, ROUNDS and OPCODE written out bit by bit (30_encoding.md R80, R85, R86) -/

theorem test_decode_montgomery :
    decode 0b0000000000000000_00000000_00000001#32 = .ok (.modmul 0) ∧
      decode 0b0000000000000000_00000000_00000010#32 = .ok (.montmul 0) ∧
      decode 0b0000000000000000_00000000_00000011#32 = .ok (.montTo 0) ∧
      decode 0b0000000000000000_00000000_00000100#32 = .ok (.montFrom 0) := by decide

theorem test_decode_modexp : decode 0b0000000000000000_00000000_00001000#32 = .ok (.modexp 0) := by decide

theorem test_decode_modinv : decode 0b0000000000000000_00000000_00001100#32 = .ok (.modinv 0) := by decide

theorem test_decode_millerRabin :
    decode 0b0000000000000000_00000000_00010000#32 = .ok (.mrRound 0) ∧
      decode 0b0000000000000000_11111111_00010001#32 = .ok (.mrTest 255) := by decide

theorem test_decode_ecc :
    decode 0b0000000000000000_00000000_00011000#32 = .ok (.ecCheck 0) ∧
      decode 0b0000000000000000_00000000_00011001#32 = .ok (.ecDbl 0) ∧
      decode 0b0000000000000000_00000000_00011010#32 = .ok (.ecAdd 0) ∧
      decode 0b0000000000000000_00000000_00011011#32 = .ok (.ecSmul 0) := by decide

theorem test_decode_refused :
    decode 0x000000FF#32 = .error .undefinedOpcode ∧ decode 0x00000005#32 = .error .undefinedOpcode ∧
      decode 0x80000001#32 = .error .reservedBits ∧
      decode 0x00010005#32 = .error .undefinedOpcode := by decide

theorem test_encode : encode (.mrTest 3) = 0x00000311#32 ∧ encode (.ecSmul 0) = 0x0000001B#32 := by decide

theorem test_table_words :
    decodeTableWord 32 0x11 = some (.mrTest 0) ∧ decodeTableWord 8 0x1B = some (.ecSmul 0) ∧
      decodeTableWord 64 0x11 = none := by decide

/-! ### one step for each command, at most two vectors each (95_test_vectors.md) -/

/-- Section 2.1. -/
theorem test_modmul : result 0x01 [(.n, 23), (.a, 5), (.b, 7)] = some (0x2, 12, 0) := by decide +kernel

/-- Section 2.1, largest N. -/
theorem test_modmul_wide :
    result 0x01 [(.n, 2 ^ 1024 - 1), (.a, 2 ^ 1024 - 2), (.b, 2 ^ 1024 - 3)] = some (0x2, 2, 0) := by
  decide +kernel

/-- Section 2.1. -/
theorem test_montmul : result 0x02 [(.n, 23), (.a, 5), (.b, 7)] = some (0x2, 6, 0) := by decide +kernel

/-- Section 2.1. -/
theorem test_montmul_even : result 0x02 [(.n, 24), (.a, 1), (.b, 1)] = some (0x1306, 0, 0) := by
  decide +kernel

/-- Section 2.1, B is not read. -/
theorem test_montTo : result 0x03 [(.n, 23), (.a, 5), (.b, 99)] = some (0x2, 10, 0) := by decide +kernel

/-- Section 2.1, A = N. -/
theorem test_montTo_range : result 0x03 [(.n, 23), (.a, 23)] = some (0x2306, 0, 0) := by decide +kernel

/-- Section 2.1. -/
theorem test_montFrom : result 0x04 [(.n, 23), (.a, 5)] = some (0x2, 14, 0) := by decide +kernel

/-- Section 2.1, 2 = R mod 7. -/
theorem test_montFrom_radix : result 0x04 [(.n, 7), (.a, 2)] = some (0x2, 1, 0) := by decide +kernel

/-- Section 2.2. -/
theorem test_modexp : result 0x08 [(.n, 6979), (.a, 88), (.e, 5971)] = some (0x2, 6122, 0) := by
  decide +kernel

/-- Section 2.2, 0^0 = 1. -/
theorem test_modexp_zero : result 0x08 [(.n, 23), (.a, 0), (.e, 0)] = some (0x2, 1, 0) := by decide +kernel

/-- Section 2.3, an even modulus. -/
theorem test_modinv : result 0x0C [(.n, 5976), (.a, 5971)] = some (0x2, 1195, 0) := by decide +kernel

/-- Section 2.3, gcd 3: NO_INVERSE/1, and RES0 keeps its value. -/
theorem test_modinv_none : result 0x0C [(.n, 9), (.a, 6), (.res0, 77)] = some (0x1106, 77, 0) := by
  decide +kernel

/-- Section 2.4, a strong liar for 25. -/
theorem test_mrRound_liar : result 0x10 [(.n, 25), (.a, 7)] = some (0x2, 1, 0) := by decide +kernel

/-- Section 2.4. -/
theorem test_mrRound_composite : result 0x10 [(.n, 561), (.a, 2)] = some (0x2, 0, 0) := by decide +kernel

/-- Section 2.5: draws 50, 2 and one not taken give 0 after two rounds, read back through ROUNDS_DONE. -/
theorem test_mrTest :
    (match step { (load [(.n, 561)]).withFetchWord 32 0x311 with rng := ⟨[50, 2, 9], 0⟩ } with
      | .next t => some (t.val .res0, readWord t 0x01C#12, t.rng)
      | _ => none) = some (0, 2#32, ⟨[9], 2⟩) := by decide +kernel

/-- Section 2.5: ROUNDS = 0, and N is checked before it. For N = 9, which passes the check of N, the order is
43_miller_rabin.md R142's and not that row's (log entry 15). -/
theorem test_mrTest_checks :
    result 0x11 [(.n, 97)] = some (0xB306, 0, 0) ∧ result 0x11 [(.n, 9)] = some (0xB306, 0, 0) ∧
      result 0x0511 [(.n, 3)] = some (0x1306, 0, 0) := by decide +kernel

/-- Section 2.6. -/
theorem test_ecCheck_off : result 0x18 (curve 9 8) = some (0x2, 0, 0) := by decide +kernel

/-- Section 2.6, the only point with y = 0. -/
theorem test_ecCheck_on : result 0x18 (curve 4 0) = some (0x2, 1, 0) := by decide +kernel

/-- Section 2.6. -/
theorem test_ecDbl : result 0x19 (curve 9 7) = some (0x2, 6, 19) := by decide +kernel

/-- Section 2.6, a slope denominator that shares the factor 5 with N: NO_INVERSE/2. -/
theorem test_ecDbl_composite :
    result 0x19 [(.n, 15), (.cb, 10), (.py, 5)] = some (0x2106, 0, 0) := by decide +kernel

/-- Section 2.6. -/
theorem test_ecAdd : result 0x1A (curve 9 7 ++ [(.qx, 3), (.qy, 10)]) = some (0x2, 17, 20) := by
  decide +kernel

/-- Section 2.6, Q = −P: INVALID_POINT/3. -/
theorem test_ecAdd_opposite : result 0x1A (curve 9 7 ++ [(.qx, 9), (.qy, 16)]) = some (0x3206, 0, 0) := by
  decide +kernel

/-- Section 2.7. -/
theorem test_ecSmul : result 0x1B (curve 9 7 ++ [(.e, 13)]) = some (0x2, 0, 22) := by decide +kernel

/-- Section 2.7, E = 28 meets the doubling of (4, 0): INVALID_POINT/4. -/
theorem test_ecSmul_order : result 0x1B (curve 9 7 ++ [(.e, 28)]) = some (0x4206, 0, 0) := by
  decide +kernel

/-- Section 2.8: the illegal words' STATUS. -/
theorem test_illegal_words :
    result 0x00010001 [] = some (0x2406, 0, 0) ∧ result 0x00000000 [] = some (0x1406, 0, 0) := by
  decide +kernel

/-! ### the window (95_test_vectors.md section 2.9) -/

theorem test_constants :
    readWord State.reset 0x000#12 = 0x4D4F4E54#32 ∧ readWord State.reset 0x004#12 = 0x00010000#32 ∧
      readWord State.reset 0x008#12 = 0x010C0400#32 ∧ readWord State.reset 0x00C#12 = 0#32 := by
  decide +kernel

theorem test_irqEn_mask : readWord (busWrite 0x018#12 32 0xFFFFFFFF#32 State.reset) 0x018#12 = 7#32 := by
  decide +kernel

theorem test_res0_readOnly : readWord (busWrite 0x600#12 32 5#32 State.reset) 0x600#12 = 0#32 := by
  decide +kernel

theorem test_operand_busy :
    readWord (busWrite 0x100#12 32 5#32 (State.reset.start 1#32)) 0x100#12 = 0#32 ∧
      readWord (busWrite 0x100#12 32 5#32 (State.reset.start 1#32)) 0x014#12 = 0x9#32 := by
  decide +kernel

theorem test_misaligned : (busRead 0x102#12 32 State.reset).response = some (.readError 0#32) := by
  decide +kernel

/-- The offsets of 10_state.md R21 and R22: the first and the last word of the file. -/
theorem test_operand_offsets :
    operandOffset .a 0 = 0x100#12 ∧ operandOffset .n 0 = 0x200#12 ∧ operandOffset .qy 31 = 0x5FC#12 ∧
      operandOffset .res1 31 = 0x6FC#12 := by decide +kernel

/-! ### witnesses: what each statement's hypotheses allow, clause by clause at the ends of its range -/

/-- The reset state with operands loaded and a command running. -/
def running (w : Word) (l : List (Reg × Nat)) : State := (load l).start w

theorem witness_DecodeOfEncode :
    (Instr.mrTest 255).WellFormed ∧ (Instr.mrTest 0).WellFormed ∧ (Instr.ecSmul 255).WellFormed := by
  decide

theorem witness_EncodeOfDecode : decode 0x0000FF11#32 = .ok (.mrTest 255) := by decide

theorem witness_IllegalWordCompletes :
    State.reset.busy = false ∧ (0x00000000#32).toNat % 256 ∉ definedOpcodes ∧
      (0xFFFFFFFF#32).toNat % 256 ∉ definedOpcodes ∧ (0x00010001#32).toNat % 256 ∈ definedOpcodes ∧
      (0x00010001#32).toNat / 65536 ≠ 0 ∧ (0xFFFF001B#32).toNat % 256 ∈ definedOpcodes ∧
      (0xFFFF001B#32).toNat / 65536 ≠ 0 := by decide

theorem witness_OnlyTestReadsRounds :
    decode 0x0000FF11#32 = .ok (.mrTest 255) ∧
      (0x00000001#32).toNat % 256 = (0x0000FF01#32).toNat % 256 ∧
      (0x00000001#32).toNat / 65536 = (0x0000FF01#32).toNat / 65536 ∧
      (0x00000001#32).toNat % 256 ≠ 0x11 := by decide

theorem witness_StepRunsDecodedCommand :
    ({ State.reset with events := [.hardwareReset, .unit] } : State).events = .hardwareReset :: [.unit] ∧
      (State.reset.withFetchWord 32 0x311).busy = true ∧
      decode (State.reset.withFetchWord 32 0x311).cmd = .ok (.mrTest 3) ∧
      (State.reset.withFetchWord 32 0x311).events = .unit :: [] ∧
      (running 0x311#32 []).busy = true ∧ decode (running 0x311#32 []).cmd = .ok (.mrTest 3) ∧
      (running 0x311#32 []).events = [] := by decide

theorem witness_StartedCommandRuns :
    State.reset.busy = false ∧ (Instr.modmul 0).WellFormed ∧ (Instr.mrTest 255).WellFormed := by decide

theorem witness_ErrorsArePrecise :
    (∃ t, exec (.modinv 0) (load [(.n, 9), (.a, 6)]) = .next t ∧
      (load [(.n, 9), (.a, 6)]).error = false ∧ t.error = true) ∧
    (∃ t, exec (.modinv 0) (load [(.n, 7), (.a, 6)]) = .next t ∧
      (load [(.n, 7), (.a, 6)]).error = false ∧ t.error = false) ∧
    ∀ k, Instr.modinv 0 ≠ .mrTest k :=
  ⟨⟨_, rfl, by decide +kernel, by decide +kernel⟩, ⟨_, rfl, by decide +kernel, by decide +kernel⟩, by simp⟩

theorem witness_ErrorsStayInTable :
    ∃ t, (running 0x1B#32 (curve 9 7)).busy = true ∧ (running 0x1B#32 (curve 9 7)).error = false ∧
      unitStep (running 0x1B#32 (curve 9 7)) = .next t ∧ t.error = true :=
  ⟨_, by decide +kernel, by decide +kernel, rfl, by decide +kernel⟩

/-- Registers that differ outside those MODMUL reads; a run that succeeds and one that fails. -/
theorem witness_CommandReadsOnlyItsRegisters :
    (∀ r ∈ readsOf (.modmul 0),
      (load [(.n, 23), (.a, 5), (.e, 4), (.res1, 9)]).regs.get r = (load [(.n, 23), (.a, 5)]).regs.get r) ∧
    (∃ t, exec (.modmul 0) (load [(.n, 23), (.a, 5)]) = .next t ∧
      (load [(.n, 23), (.a, 5)]).error = false ∧ t.error = false) ∧
    ∃ t, exec (.modmul 0) (load [(.n, 22)]) = .next t ∧ (load [(.n, 22)]).error = false ∧ t.error = true :=
  ⟨by decide +kernel, ⟨_, rfl, by decide +kernel, by decide +kernel⟩,
    ⟨_, rfl, by decide +kernel, by decide +kernel⟩⟩

theorem witness_CompletionFrameByBytes :
    (∃ t, exec (.modmul 0) (load [(.n, 23)]) = .next t) ∧
      (0x013#12 : Offset).toNat / 4 * 4 ≠ 0x014 ∧ (0x018#12 : Offset).toNat / 4 * 4 ≠ 0x01C ∧
      (0x5FF#12 : Offset).toNat < 0x600 ∧ 0x700 ≤ (0x700#12 : Offset).toNat ∧
      (Reg.res1 ∉ writesOf (.modmul 0) ∧ 0x680 ≤ (0x680#12 : Offset).toNat) :=
  ⟨⟨_, rfl⟩, by decide⟩

theorem witness_ResetEffect_ControlRegisterActs :
    (0x00000001#32).getLsbD 0 = true ∧ (0xFFFFFFFF#32).getLsbD 0 = true ∧
      (0x00000000#32).getLsbD 0 = false ∧ (0xFFFFFFFE#32).getLsbD 0 = false := by decide

theorem witness_SoftResetDiscardsCompletion :
    ∃ t u, (0x1#32).getLsbD 0 = true ∧
      runEvents [.unit, .write 0x020#12 32 0x1#32] (running 0x08#32 [(.n, 23), (.a, 5), (.e, 2)]) =
        .next t ∧
      runEvents [.write 0x020#12 32 0x1#32] (running 0x08#32 [(.n, 23), (.a, 5), (.e, 2)]) = .next u :=
  ⟨_, _, by decide, rfl, rfl⟩

theorem witness_LegalReadReturnsRegister :
    (∀ o ∈ [0x000, 0x004, 0x008, 0x010, 0x014, 0x018, 0x01C, 0x020, 0x100, 0x6FC],
      o < 2 ^ 12 ∧ o % 4 = 0) ∧
    (ReservedOffset 0x00C ∧ ReservedOffset 0x024 ∧ ReservedOffset 0x0FC ∧ ReservedOffset 0x700 ∧
      ReservedOffset 0xFFC ∧ ¬ ReservedOffset 0x020 ∧ ¬ ReservedOffset 0x100 ∧ ¬ ReservedOffset 0x6FC) ∧
    (fileOrder[0]? = some .a ∧ 0x100 = 0x100 + 128 * 0 + 4 * 0) ∧
    (fileOrder[11]? = some .res1 ∧ 0x6FC = 0x100 + 128 * 11 + 4 * 31) := by
  unfold ReservedOffset
  decide

theorem witness_IllegalAccessRefused :
    (8 ≠ 32 ∨ (0x000#12 : Offset).toNat % 4 ≠ 0) ∧ (64 ≠ 32 ∨ (0x000#12 : Offset).toNat % 4 ≠ 0) ∧
      (32 ≠ 32 ∨ (0xFFF#12 : Offset).toNat % 4 ≠ 0) ∧ (32 ≠ 32 ∨ (0x102#12 : Offset).toNat % 4 ≠ 0) := by
  decide

theorem witness_CommandWriteStarts :
    State.reset.busy = false ∧ (State.reset.start 1#32).busy = true := by decide

theorem witness_OperandWordWrite :
    fileOrder[0]? = some .a ∧ fileOrder[9]? = some .qy ∧ fileOrder[10]? = some .res0 ∧
      fileOrder[11]? = some .res1 ∧ State.reset.busy = false ∧ (State.reset.start 1#32).busy = true := by
  decide

theorem witness_ReadOnlyWritesIgnored :
    ∀ o ∈ [0x000, 0x004, 0x008, 0x01C, 0x00C, 0x024, 0x0FC, 0x700, 0xFFC], o % 4 = 0 ∧ o < 2 ^ 12 ∧
      (o = 0x000 ∨ o = 0x004 ∨ o = 0x008 ∨ o = 0x01C ∨ ReservedOffset o) := by
  unfold ReservedOffset
  decide

theorem witness_StatusWriteClears :
    (0x0000000E#32).toNat / 2 % 2 = 1 ∧ (0x0000000E#32).toNat / 4 % 2 = 1 ∧
      (0x0000000E#32).toNat / 8 % 2 = 1 ∧ ¬ (0xFFFFFFF1#32).toNat / 2 % 2 = 1 := by decide

theorem witness_AddressDecode :
    (Config.base ≤ Config.base ∧ Config.base ≤ Config.base + 0xFFF) ∧
      (Config.base ≤ Config.base + 0xFFF ∧ Config.base + 0xFFF ≤ Config.base + 0xFFF) ∧
      (Config.base + 0x1000 < Config.base ∨ Config.base + 0xFFF < Config.base + 0x1000) :=
  ⟨by omega, by omega, by omega⟩

theorem witness_LoadOperandWrites :
    State.reset.busy = false ∧ Reg.a ≠ .res0 ∧ Reg.a ≠ .res1 ∧ Reg.qy ≠ .res0 ∧ Reg.qy ≠ .res1 := by
  decide

/-- A host at its `wait`, once with the unit busy and once with it idle. -/
theorem witness_WaitPollsUntilIdle :
    ∀ dev ∈ [State.reset, State.reset.start 1#32],
      let h : Hosted := { prog := wait 0 0, pc := 0, vars := [], halted := false, dev := dev }
      h.halted = false ∧ h.pc = 0 ∧ h.prog[0]? = some (.rd32 0x014#12 0) ∧
        h.prog[0 + 1]? = some (.bnz 0 0x1#32 0) := by decide

theorem witness_BusyChangesOnlySo :
    (∃ t, stepEvent (.write 0x010#12 32 1#32) State.reset = .next t ∧ State.reset.busy = false) ∧
      ∃ t, stepEvent .unit (running 1#32 []) = .next t ∧ (running 1#32 []).busy = true :=
  ⟨⟨_, rfl, rfl⟩, ⟨_, rfl, rfl⟩⟩

theorem witness_OverrunChangesOnlySo :
    (∃ t, stepEvent (.write 0x5FC#12 32 1#32) (running 1#32 []) = .next t ∧
      (running 1#32 []).overrun = false ∧ (running 1#32 []).busy = true ∧
      (0x5FC#12 : Offset).toNat % 4 = 0 ∧
      ((0x5FC#12 : Offset).toNat = 0x010 ∨
        (0x100 ≤ (0x5FC#12 : Offset).toNat ∧ (0x5FC#12 : Offset).toNat ≤ 0x5FC))) ∧
    ∃ t, stepEvent (.write 0x014#12 32 8#32) (running 1#32 []).markOverrun = .next t ∧
      (running 1#32 []).markOverrun.overrun = true :=
  ⟨⟨_, rfl, by decide, by decide, by decide, by decide⟩, ⟨_, rfl, by decide⟩⟩

/-- A result written by a completion, and an operand by an idle write. -/
theorem witness_RegisterWritersAreThese :
    (∃ t, stepEvent .unit (running 1#32 [(.n, 23), (.a, 5), (.b, 7)]) = .next t ∧
      fileOrder[10]? = some .res0 ∧
      t.reg .res0 ≠ (running 1#32 [(.n, 23), (.a, 5), (.b, 7)]).reg .res0) ∧
    ∃ t, stepEvent (.write 0x5FC#12 32 1#32) State.reset = .next t ∧ fileOrder[9]? = some .qy ∧
      t.reg .qy ≠ State.reset.reg .qy :=
  ⟨⟨_, rfl, rfl, by decide +kernel⟩, ⟨_, rfl, rfl, by decide +kernel⟩⟩

theorem witness_IrqFollowsEnabledCauses :
    ∃ t, exec (.modinv 0) { State.reset with doneIe := true } = .next t ∧
      ({ State.reset with doneIe := true } : State).doneIe = true :=
  ⟨_, rfl, rfl⟩

/-- A running command leaves a state that meets the invariant. -/
theorem running_statusInv (w : Word) (l : List (Reg × Nat)) : StatusInv (running w l) where
  busy_clear := fun _ => ⟨rfl, rfl, rfl⟩
  error_code := ⟨(fun h => by cases h), fun h => absurd rfl h⟩
  no_detail := fun _ => rfl
  error_row := fun h => by cases h
  rounds_le := Nat.zero_le _
  rounds_test := fun h => absurd rfl h
  failed_rounds := fun _ => rfl

theorem witness_StatusInvariantKept :
    StatusInv (running 0x311#32 [(.n, 97)]) ∧ ∃ t, step (running 0x311#32 [(.n, 97)]) = .next t :=
  ⟨running_statusInv _ _, step_next _⟩

/-- The race of 95_test_vectors.md section 3.4: a write to A and a poll before the completion. -/
theorem witness_OutcomeIndependentOfLatency :
    StatusInv (running 0x01#32 [(.n, 23), (.a, 5), (.b, 7)]) ∧
      (running 0x01#32 [(.n, 23), (.a, 5), (.b, 7)]).busy = true ∧
      (∀ ev ∈ [Event.write 0x100#12 32 5#32, .read 0x014#12 32, .write 0x020#12 32 0#32], NoReset ev) ∧
      (∃ t, runEvents
        ([Event.write 0x100#12 32 5#32, .read 0x014#12 32, .write 0x020#12 32 0#32] ++ [.unit])
        (running 0x01#32 [(.n, 23), (.a, 5), (.b, 7)]) = .next t) ∧
      ∃ u, runEvents [.unit] (running 0x01#32 [(.n, 23), (.a, 5), (.b, 7)]) = .next u :=
  ⟨running_statusInv _ _, rfl, by simp [NoReset], runEvents_next _ _, runEvents_next _ _⟩

theorem witness_ModmulProduct_MontmulProduct :
    (OddMod (load [(.n, 3), (.a, 2), (.b, 2)]) 3 ∧
      (load [(.n, 3), (.a, 2), (.b, 2)]).val .a < (load [(.n, 3), (.a, 2), (.b, 2)]).val .n ∧
      (load [(.n, 3), (.a, 2), (.b, 2)]).val .b < (load [(.n, 3), (.a, 2), (.b, 2)]).val .n) ∧
    (¬ OddMod (load [(.n, 1)]) 3 ∧ ¬ OddMod (load [(.n, 2 ^ 1024 - 2)]) 3) ∧
    (OddMod (load [(.n, 23), (.a, 23)]) 3 ∧
      (load [(.n, 23), (.a, 23)]).val .n ≤ (load [(.n, 23), (.a, 23)]).val .a) ∧
    (OddMod (load [(.n, 23), (.a, 22), (.b, 23)]) 3 ∧
      (load [(.n, 23), (.a, 22), (.b, 23)]).val .a < (load [(.n, 23), (.a, 22), (.b, 23)]).val .n ∧
      (load [(.n, 23), (.a, 22), (.b, 23)]).val .n ≤ (load [(.n, 23), (.a, 22), (.b, 23)]).val .b) := by
  decide +kernel

theorem witness_MontToForm_MontFromForm_ModexpPower :
    (OddMod (load [(.n, 2 ^ 1024 - 1), (.a, 2 ^ 1024 - 2)]) 3 ∧
      (load [(.n, 2 ^ 1024 - 1), (.a, 2 ^ 1024 - 2)]).val .a <
        (load [(.n, 2 ^ 1024 - 1), (.a, 2 ^ 1024 - 2)]).val .n) ∧
    ¬ OddMod (load [(.n, 22)]) 3 ∧
    (OddMod (load [(.n, 3), (.a, 3)]) 3 ∧
      (load [(.n, 3), (.a, 3)]).val .n ≤ (load [(.n, 3), (.a, 3)]).val .a) := by decide +kernel

theorem witness_MontgomeryDomainLaws :
    (load [(.n, 23)]).error = false ∧ OddMod (load [(.n, 23)]) 3 ∧ 22 < (load [(.n, 23)]).val .n ∧
      7 < (load [(.n, 23)]).val .n ∧ 0 < (load [(.n, 23)]).val .n := by decide +kernel

theorem val_23 : (load [(.n, 23)]).val .n = 23 := by decide +kernel

theorem witness_ModexpLaws :
    (load [(.n, 23)]).error = false ∧ OddMod (load [(.n, 23)]) 3 ∧ 22 < (load [(.n, 23)]).val .n ∧
      (2 ^ 1024 - 1) + 0 < 2 ^ Config.opw ∧ ((load [(.n, 23)]).val .n).Prime ∧ 22 ≠ 0 :=
  ⟨by decide +kernel, by decide +kernel, by decide +kernel, by decide +kernel,
    by rw [val_23]; norm_num, by decide⟩

/-- The example of the source, 95_test_vectors.md section 1.1. -/
theorem witness_RsaRoundTrip :
    (load [(.n, 6979)]).error = false ∧ (7 : Nat).Prime ∧ (997 : Nat).Prime ∧ 7 ≠ 997 ∧
      (load [(.n, 6979)]).val .n = 7 * 997 ∧ (load [(.n, 6979)]).val .n % 2 = 1 ∧
      5971 < 2 ^ Config.opw ∧ 1195 < 2 ^ Config.opw ∧ 5971 * 1195 % ((7 - 1) * (997 - 1)) = 1 ∧
      88 < (load [(.n, 6979)]).val .n :=
  ⟨by decide +kernel, by norm_num, by norm_num, by decide, by decide +kernel, by decide +kernel,
    by decide +kernel, by decide +kernel, by decide, by decide +kernel⟩

theorem witness_ModinvInverse :
    (2 ≤ (load [(.n, 2), (.a, 1)]).val .n ∧
      (load [(.n, 2), (.a, 1)]).val .a < (load [(.n, 2), (.a, 1)]).val .n ∧
      Nat.gcd ((load [(.n, 2), (.a, 1)]).val .a) ((load [(.n, 2), (.a, 1)]).val .n) = 1) ∧
    (load [(.n, 1)]).val .n < 2 ∧
    (2 ≤ (load [(.n, 7), (.a, 7)]).val .n ∧
      (load [(.n, 7), (.a, 7)]).val .n ≤ (load [(.n, 7), (.a, 7)]).val .a) ∧
    (2 ≤ (load [(.n, 7)]).val .n ∧ (load [(.n, 7)]).val .a < (load [(.n, 7)]).val .n ∧
      Nat.gcd ((load [(.n, 7)]).val .a) ((load [(.n, 7)]).val .n) ≠ 1) := by decide +kernel

theorem witness_ModinvSucceedsExactlyWhen :
    (∃ t, (load [(.n, 7), (.a, 3)]).error = false ∧
      exec (.modinv 0) (load [(.n, 7), (.a, 3)]) = .next t ∧ t.error = false) ∧
    ∃ t, (load [(.n, 7)]).error = false ∧ exec (.modinv 0) (load [(.n, 7)]) = .next t ∧ t.error = true :=
  ⟨⟨_, by decide +kernel, rfl, by decide +kernel⟩, ⟨_, by decide +kernel, rfl, by decide +kernel⟩⟩

theorem witness_MrRoundVerdict :
    (OddMod (load [(.n, 5), (.a, 2)]) 5 ∧
      LegalWitness (load [(.n, 5), (.a, 2)]) ((load [(.n, 5), (.a, 2)]).val .a)) ∧
    (¬ OddMod (load [(.n, 3)]) 5 ∧ ¬ OddMod (load [(.n, 6)]) 5) ∧
    (OddMod (load [(.n, 97), (.a, 96)]) 5 ∧
      ¬ LegalWitness (load [(.n, 97), (.a, 96)]) ((load [(.n, 97), (.a, 96)]).val .a)) := by
  decide +kernel

/-- 95_test_vectors.md section 2.4: both witnesses of 5 pass. -/
theorem passes_5 : MrPasses 5 2 ∧ MrPasses 5 3 :=
  ⟨⟨2, 1, by decide, by decide, .inr ⟨1, by decide, by decide⟩⟩,
    ⟨2, 1, by decide, by decide, .inr ⟨1, by decide, by decide⟩⟩⟩

/-- 95_test_vectors.md section 2.4: 2 proves 9 composite. -/
theorem fails_9 : ¬ MrPasses 9 2 := by
  rintro ⟨k, q, h, hq, hp⟩
  obtain ⟨rfl, rfl⟩ := two_pow_mul_odd_unique (k := 3) (q := 1) (by decide) hq (by omega)
  revert hp
  decide

theorem witness_MrTestFollowsDraws :
    (let s := { load [(.n, 5)] with rng := ⟨[2, 3] ++ [4], 0⟩ };
      OddMod s 5 ∧ s.rng.queue = [2, 3] ++ [4] ∧ ([2, 3] : List Nat).length = 2 ∧
        (∀ a ∈ [2, 3], LegalWitness s a) ∧ s.val .n = 5) ∧
    (∀ a ∈ [2, 3], MrPasses 5 a) ∧
    (let s := { load [(.n, 9)] with rng := ⟨[2, 3] ++ [], 0⟩ };
      OddMod s 5 ∧ s.rng.queue = [2, 3] ++ [] ∧ (∀ a ∈ [2, 3], LegalWitness s a) ∧ s.val .n = 9) ∧
    (([2, 3] : List Nat)[0]? = some 2 ∧ ¬ MrPasses 9 2 ∧ ∀ b ∈ ([2, 3] : List Nat).take 0, MrPasses 9 b) ∧
    ¬ OddMod (load [(.n, 3)]) 5 :=
  ⟨by decide +kernel, by simpa using passes_5, by decide +kernel, ⟨rfl, fails_9, by simp⟩,
    by decide +kernel⟩

theorem witness_MrTestUnderEverySource :
    (OddMod (load [(.n, 5)]) 5 ∧ 1 ≤ 1 ∧ 255 ≤ 255) ∧ ¬ OddMod (load [(.n, 3)]) 5 := by decide +kernel

theorem witness_PrimesAlwaysPass :
    (∃ t, (load [(.n, 5), (.a, 2)]).error = false ∧ ((load [(.n, 5), (.a, 2)]).val .n).Prime ∧
      5 ≤ (load [(.n, 5), (.a, 2)]).val .n ∧
      LegalWitness (load [(.n, 5), (.a, 2)]) ((load [(.n, 5), (.a, 2)]).val .a) ∧
      exec (.mrRound 0) (load [(.n, 5), (.a, 2)]) = .next t) ∧
    ∃ t, exec (.mrTest 255) (load [(.n, 5), (.a, 2)]) = .next t := by
  have h : (load [(.n, 5), (.a, 2)]).val .n = 5 := by decide +kernel
  exact ⟨⟨_, by decide +kernel, by rw [h]; norm_num, by decide +kernel, by decide +kernel, rfl⟩, exec_next _ _⟩

theorem witness_EcCheckMembership_EcDblTangent :
    (CurveRange (load (curve 9 7)) ∧
      CurveEq (load (curve 9 7)) ((load (curve 9 7)).val .px) ((load (curve 9 7)).val .py) ∧
      (load (curve 9 7)).val .py ≠ 0 ∧
      Nat.gcd (2 * (load (curve 9 7)).val .py % (load (curve 9 7)).val .n)
        ((load (curve 9 7)).val .n) = 1) ∧
    (CurveRange (load (curve 9 8)) ∧
      ¬ CurveEq (load (curve 9 8)) ((load (curve 9 8)).val .px) ((load (curve 9 8)).val .py)) ∧
    ¬ OddMod (load [(.n, 24)]) 3 ∧
    (OddMod (load (curve 9 23)) 3 ∧ ¬ CurveRange (load (curve 9 23)) ∧
      curveDetail (load (curve 9 23)) = 8 ∧ ¬ CurveRange (load (curve 23 7)) ∧
      curveDetail (load (curve 23 7)) = 7) ∧
    (CurveRange (load (curve 4 0)) ∧
      CurveEq (load (curve 4 0)) ((load (curve 4 0)).val .px) ((load (curve 4 0)).val .py) ∧
      (load (curve 4 0)).val .py = 0) := by decide +kernel

/-- 95_test_vectors.md section 2.6: a point of a composite curve whose slope has no inverse. -/
theorem witness_EcDblTangent_noInverse :
    let s := load [(.n, 15), (.cb, 10), (.py, 5)]
    CurveRange s ∧ CurveEq s (s.val .px) (s.val .py) ∧ s.val .py ≠ 0 ∧
      Nat.gcd (2 * s.val .py % s.val .n) (s.val .n) ≠ 1 := by decide +kernel

/-- The curve with P = (9, 7) and another point. -/
def two (qx qy : Nat) : State := load (curve 9 7 ++ [(.qx, qx), (.qy, qy)])

theorem witness_EcAddChord :
    (CurveRange (two 3 10) ∧ QRange (two 3 10) ∧
      CurveEq (two 3 10) ((two 3 10).val .px) ((two 3 10).val .py) ∧
      CurveEq (two 3 10) ((two 3 10).val .qx) ((two 3 10).val .qy) ∧
      (two 3 10).val .px ≠ (two 3 10).val .qx ∧
      Int.gcd (((two 3 10).val .qx : Int) - (two 3 10).val .px) ((two 3 10).val .n) = 1) ∧
    (QRange (two 9 16) ∧ CurveEq (two 9 16) ((two 9 16).val .qx) ((two 9 16).val .qy) ∧
      (two 9 16).val .px = (two 9 16).val .qx ∧ (two 9 16).val .py ≠ (two 9 16).val .qy) ∧
    (QRange (two 9 7) ∧ (two 9 7).val .px = (two 9 7).val .qx ∧ (two 9 7).val .py = (two 9 7).val .qy) ∧
    (CurveRange (two 23 0) ∧ (two 23 0).val .n ≤ (two 23 0).val .qx) ∧
    (CurveRange (two 22 23) ∧ (two 22 23).val .qx < (two 22 23).val .n ∧
      (two 22 23).val .n ≤ (two 22 23).val .qy) ∧
    (QRange (two 9 8) ∧ ¬ CurveEq (two 9 8) ((two 9 8).val .qx) ((two 9 8).val .qy)) := by
  decide +kernel

/-- On the curve y² = x³ modulo 15, (0, 0) and (10, 5): the denominator 10 shares the factor 5. -/
theorem witness_EcAddChord_noInverse :
    let s := load [(.n, 15), (.qx, 10), (.qy, 10)]
    CurveRange s ∧ QRange s ∧ CurveEq s (s.val .px) (s.val .py) ∧ CurveEq s (s.val .qx) (s.val .qy) ∧
      s.val .px ≠ s.val .qx ∧ Int.gcd ((s.val .qx : Int) - s.val .px) (s.val .n) ≠ 1 := by decide +kernel

theorem witness_PointCoresFollowFormulas :
    ((9 < 23 ∧ 7 < 23 ∧ 3 < 23 ∧ 10 < 23) ∧ (7 ≠ 0 ∧ Nat.gcd (2 * 7 % 23) 23 = 1) ∧
      (9 ≠ 3 ∧ Int.gcd ((3 : Int) - 9) 23 = 1)) ∧
    (5 ≠ 0 ∧ Nat.gcd (2 * 5 % 15) 15 ≠ 1) ∧ (0 ≠ 10 ∧ Int.gcd ((10 : Int) - 0) 15 ≠ 1) := by decide

/-- E = 2 and E = 28 on the curve of section 2.7, one that answers a point and one that errs. -/
theorem witness_EcSmulDoubleAndAdd :
    (let s := load (curve 9 7 ++ [(.e, 2)]);
      CurveRange s ∧ 2 ≤ s.val .e ∧ CurveEq s (s.val .px) (s.val .py) ∧
        (doubleAndAdd (s.val .n) (s.val .ca) (s.val .e) (s.val .px, s.val .py)).toOption =
          some (6, 19)) ∧
    (let s := load (curve 9 7 ++ [(.e, 28)]);
      CurveRange s ∧ 2 ≤ s.val .e ∧ CurveEq s (s.val .px) (s.val .py) ∧
        (doubleAndAdd (s.val .n) (s.val .ca) (s.val .e) (s.val .px, s.val .py)).toOption = none) ∧
    ¬ OddMod (load [(.n, 22)]) 3 ∧
    (OddMod (load (curve 23 7 ++ [(.e, 1)])) 3 ∧ (load (curve 23 7 ++ [(.e, 1)])).val .e < 2) ∧
    (let s := load (curve 23 7 ++ [(.e, 2)]);
      OddMod s 3 ∧ 2 ≤ s.val .e ∧ ¬ CurveRange s) ∧
    (let s := load (curve 9 8 ++ [(.e, 2)]);
      CurveRange s ∧ 2 ≤ s.val .e ∧ ¬ CurveEq s (s.val .px) (s.val .py)) := by decide +kernel

theorem witness_ScalarTwoIsDoubling : (load (curve 9 7 ++ [(.e, 2)])).val .e = 2 := by decide +kernel

theorem witness_PointResultsOnCurve_PointAdditionCommutes :
    ∃ t, writesOf (.ecAdd 0) = [.res0, .res1] ∧ (two 3 10).error = false ∧
      exec (.ecAdd 0) (two 3 10) = .next t ∧ t.error = false :=
  ⟨_, rfl, by decide +kernel, rfl, by decide +kernel⟩

/-- A failed addition on a prime N: P = Q. -/
theorem witness_PrimeFieldNeverLacksInverse :
    ∃ t, writesOf (.ecAdd 0) = [.res0, .res1] ∧ ((two 9 7).val .n).Prime ∧ (two 9 7).error = false ∧
      exec (.ecAdd 0) (two 9 7) = .next t ∧ t.error = true := by
  have h : (two 9 7).val .n = 23 := by decide +kernel
  exact ⟨_, rfl, by rw [h]; norm_num, by decide +kernel, rfl, by decide +kernel⟩

/-- The curve of section 2.6 is one the laws of 44_ecc.md R169 speak of. -/
theorem witness_EllipticDomain : EllipticDomain (load (curve 9 7)) := by
  have h : (load (curve 9 7)).val .n = 23 := by decide +kernel
  exact ⟨by rw [h]; norm_num, by decide +kernel, by decide +kernel, by decide +kernel, by decide +kernel⟩

/-- 13·P on the curve of section 2.7. -/
theorem witness_ScalarMultipleInGroup :
    let s := load (curve 9 7 ++ [(.e, 13)])
    (s.val .n).Prime ∧ (4 * s.val .ca ^ 3 + 27 * s.val .cb ^ 2) % s.val .n ≠ 0 ∧ s.error = false ∧
      ∃ t, exec (.ecSmul 0) s = .next t ∧ t.error = false := by
  have h : (load (curve 9 7 ++ [(.e, 13)])).val .n = 23 := by decide +kernel
  exact ⟨by rw [h]; norm_num, by decide +kernel, by decide +kernel, _, rfl, by decide +kernel⟩

end Sys2Proof.Tests
end

section
/-! PROOFS. What the registers of the window hold and what a write of each does (10_state.md R22, R29, R35, R36,
R41). -/

namespace Sys2Proof.Proofs

open Sys2Proof Sys2Proof.Machine Sys2Proof.Claims

/-! ### bits of a word as numbers -/

/-- Bit k of a word by arithmetic on its number. -/
theorem getLsbD_eq_decide (w : Word) (k : Nat) :
    w.getLsbD k = decide (w.toNat / 2 ^ k % 2 = 1) := by
  rw [← BitVec.testBit_toNat, Nat.testBit_eq_decide_div_mod_eq]

/-- Bit k of a word as the number 0 or 1. -/
theorem flag_getLsbD (w : Word) (k : Nat) : flag (w.getLsbD k) = w.toNat / 2 ^ k % 2 := by
  rcases Nat.mod_two_eq_zero_or_one (w.toNat / 2 ^ k) with h | h <;> simp [getLsbD_eq_decide, flag, h]

/-- Clearing a flag where a condition holds, as STATUS does (10_state.md R35). -/
theorem and_not_decide (b : Bool) (p : Prop) [Decidable p] :
    (b && !decide p) = if p then false else b := by
  by_cases hp : p <;> simp [hp]

/-- IRQ_EN as a read returns it, as a number: bit 0 DONE_IE, bit 1 ERR_IE, bit 2 OVR_IE (10_state.md R36). -/
theorem irqEnWord_toNat (s : State) :
    (irqEnWord s).toNat = flag s.doneIe + 2 * flag s.errIe + 4 * flag s.ovrIe := by
  unfold irqEnWord
  cases s.doneIe <;> cases s.errIe <;> cases s.ovrIe <;> rfl

/-! ### the control registers of the window -/

/-- Settles O15: every register is 0 after a reset, and the rest is computed. -/
theorem resetStateValues : Obligations.ResetStateValues := by
  refine ⟨fun r => ?_, rfl, rfl, rfl, rfl, rfl, rfl, rfl, rfl, rfl, rfl, rfl, rfl, rfl, rfl, configWord_eq⟩
  rw [State.val, reset_reg, zeroOperand_eq, BitVec.toNat_ofNat, Nat.zero_mod]

/-- Settles O21: CMD stands at 0x010, and a write of it is a start or an ignored write. -/
theorem commandWriteStarts : Obligations.CommandWriteStarts := by
  intro s w
  have hlegal : legalAccess 0x010#12 32 = true := rfl
  have hat : locate (0x010#12).toNat = .cmd := rfl
  refine ⟨fun hidle => ?_, fun hbusy => ?_, busRead_legal hlegal s⟩
  · rw [busWrite_legal hlegal, hat, writeReg_cmd_idle hidle, State.start]
  · rw [busWrite_legal hlegal, hat, writeReg_cmd_busy hbusy, State.markOverrun]

/-- Settles O24: the write is `clearStatus`, with its bits as numbers. -/
theorem statusWriteClears : Obligations.StatusWriteClears := by
  intro s w
  have hwrite : busWrite 0x014#12 32 w s = { clearStatus w s with response := some .writeOk } := rfl
  rw [hwrite, clearStatus]
  simp only [getLsbD_eq_decide, and_not_decide, decide_eq_true_eq, Nat.reducePow]

/-- Settles O25: the write is `setIrqEn`, and a read shows the three bits it stored. -/
theorem irqEnableWrite : Obligations.IrqEnableWrite := by
  intro s w
  refine ⟨{ setIrqEn w s with response := some .writeOk }, rfl, rfl, ?_, flag_getLsbD w 1,
    flag_getLsbD w 2, irqEnWord (setIrqEn w s), rfl, ?_⟩
  · simpa using flag_getLsbD w 0
  · rw [irqEnWord_toNat, setIrqEn_doneIe, setIrqEn_errIe, setIrqEn_ovrIe, flag_getLsbD, flag_getLsbD,
      flag_getLsbD]
    omega

/-! ### the words of an operand register -/

/-- The place of a register in the file is its index (10_state.md R21). -/
theorem index_of_fileOrder {i : Nat} {r : Reg} (h : fileOrder[i]? = some r) : r.index = i := by
  have hi : i < 12 := (List.getElem?_eq_some_iff.mp h).1
  interval_cases i <;> cases h <;> rfl

/-- RES0 and RES1, the last two of the file, are the registers a host does not write (10_state.md R21). -/
theorem hostWritable_eq (r : Reg) : r.hostWritable = decide (r.index < 10) := by
  cases r <;> rfl

/-- The offset of word j of register i at OPW = 1024 (10_state.md R22). -/
theorem operandOffset_eq {i : Nat} {r : Reg} (h : fileOrder[i]? = some r) (j : Nat) :
    BitVec.ofNat 12 (0x100 + 128 * i + 4 * j) = operandOffset r j := by
  rw [operandOffset, index_of_fileOrder h, regBytes_eq, Nat.mul_comm 128]

/-- A read at the offset of word j of a register shows that word (10_state.md R22). -/
theorem readWord_operandOffset (s : State) (r : Reg) {j : Nat} (hj : j < Config.opww) :
    readWord s (operandOffset r j) = operandWord (s.reg r) j := by
  rw [readWord, locate_operandOffset r hj, readReg]

/-- A write at the offset of word j of a register is a legal write of that word (10_state.md R22). -/
theorem busWrite_operandOffset (s : State) (r : Reg) {j : Nat} (hj : j < Config.opww) (v : Word) :
    busWrite (operandOffset r j) 32 v s =
      { writeReg v s (.operand r j) with response := some .writeOk } := by
  rw [busWrite_legal (legalAccess_operandOffset r hj), locate_operandOffset r hj]

/-- Settles O22: the offset is that of a word of register r, whose index is i. -/
theorem operandWordWrite : Obligations.OperandWordWrite := by
  intro s i j r v hr hj
  rw [← opww_eq] at hj
  have hindex := index_of_fileOrder hr
  simp only [operandOffset_eq hr, busWrite_operandOffset s r hj]
  refine ⟨?_, ?_, fun hi hidle => ?_, fun hi hbusy => ?_, fun hi => ?_⟩
  · rw [readWord_operandOffset s r hj, operandWord_toNat, State.val]
  · rw [State.val, operand_eq_sum, opww_eq]
    refine Finset.sum_congr rfl fun k hk => ?_
    rw [readWord_operandOffset s r (opww_eq ▸ Finset.mem_range.mp hk)]
  · have hw : r.hostWritable = true := by simp [hostWritable_eq, hindex, hi]
    refine ⟨setOperandWord (s.reg r) j v, ?_, fun k _ => ?_⟩
    · rw [writeReg_operand_idle hw hidle, State.setReg]
    · rw [← operandWord_toNat, operandWord_setOperandWord _ hj, State.val, ← operandWord_toNat]
      exact apply_ite BitVec.toNat _ _ _
  · have hw : r.hostWritable = true := by simp [hostWritable_eq, hindex, hi]
    rw [writeReg_operand_busy hw hbusy, State.markOverrun]
  · have hw : r.hostWritable = false := by simp [hostWritable_eq, hindex, hi]
    rw [writeReg_operand_readOnly hw]

end Sys2Proof.Proofs
end

section
/-! PROOFS. Which moves change BUSY and OVERRUN (10_state.md R31, R34). -/

namespace Sys2Proof.Proofs

open Sys2Proof Sys2Proof.Machine Sys2Proof.Claims

/-! ### what stands at an offset -/

/-- CMD stands at 0x010 and nowhere else (10_state.md R25). -/
theorem locate_eq_cmd_iff (off : Offset) : locate off.toNat = .cmd ↔ off = 0x010#12 :=
  ⟨fun h => BitVec.eq_of_toNat_eq (locate_cmd h), fun h => by rw [h]; rfl⟩

/-- STATUS stands at 0x014 and nowhere else (10_state.md R25). -/
theorem locate_eq_status_iff (off : Offset) : locate off.toNat = .status ↔ off = 0x014#12 :=
  ⟨fun h => BitVec.eq_of_toNat_eq (locate_status h), fun h => by rw [h]; rfl⟩

/-- CTRL stands at 0x020 and nowhere else (10_state.md R25). -/
theorem locate_eq_ctrl_iff (off : Offset) : locate off.toNat = .ctrl ↔ off = 0x020#12 :=
  ⟨fun h => BitVec.eq_of_toNat_eq (locate_ctrl h), fun h => by rw [h]; rfl⟩

/-- The registers whose writes a busy unit ignores with OVERRUN: CMD and A to QY (10_state.md R34). -/
def guarded : WindowReg → Bool
  | .cmd => true
  | .operand r _ => r.hostWritable
  | _ => false

/-- The guarded registers stand at 0x010 and from 0x100 to below 0x600 (10_state.md R21, R25). -/
theorem guarded_locate_iff (off : Nat) :
    guarded (locate off) = true ↔ off = 0x010 ∨ 0x100 ≤ off ∧ off < 0x600 := by
  constructor
  · intro h
    cases hat : locate off with
    | cmd => exact .inl (locate_cmd hat)
    | operand r j =>
      rw [hat, guarded, hostWritable_eq, decide_eq_true_eq] at h
      have hbound := locate_operand_bound hat
      rw [regBytes_eq, opww_eq] at hbound
      omega
    | _ => simp [hat, guarded] at h
  · rintro (rfl | ⟨hlo, hhi⟩)
    · rfl
    · have hindex : (off - 0x100) / 128 < 10 := by omega
      simp only [locate, if_pos hlo, regBytes_eq]
      interval_cases (off - 0x100) / 128 <;> rfl

/-- At a multiple of 4 the last guarded offset is 0x5FC. -/
theorem guarded_locate_aligned {off : Offset} (h : off.toNat % 4 = 0) :
    guarded (locate off.toNat) = true ↔
      off.toNat = 0x010 ∨ 0x100 ≤ off.toNat ∧ off.toNat ≤ 0x5FC := by
  rw [guarded_locate_iff]
  omega

/-! ### what a write does to BUSY and OVERRUN -/

/-- A write of a guarded register while busy only sets OVERRUN (10_state.md R34). -/
theorem writeReg_guarded_busy {s : State} {at_ : WindowReg} (hg : guarded at_ = true)
    (hbusy : s.busy = true) (v : Word) : writeReg v s at_ = s.markOverrun := by
  cases at_ with
  | cmd => exact writeReg_cmd_busy hbusy v
  | operand r j => exact writeReg_operand_busy hg hbusy j v
  | _ => cases hg

/-- BUSY after a legal write: set by CMD, cleared by a 1 in CTRL bit 0 (10_state.md R29, R31, R38). -/
theorem writeReg_busy (v : Word) (s : State) (at_ : WindowReg) :
    (writeReg v s at_).busy = true ↔
      at_ = .cmd ∨ s.busy = true ∧ ¬ (at_ = .ctrl ∧ v.getLsbD 0 = true) := by
  cases at_ with
  | cmd => cases hb : s.busy <;> simp [writeReg, hb]
  | ctrl =>
    cases hv : v.getLsbD 0 with
    | true => simp [writeReg_ctrl_reset hv, State.reset]
    | false => simp [writeReg_ctrl_noop hv]
  | operand r j => cases hr : r.hostWritable <;> cases hb : s.busy <;> simp [writeReg, hr, hb]
  | _ => simp [writeReg]

/-- OVERRUN after a legal write: set by a guarded register while busy, cleared by a 1 in STATUS bit 3 or in
CTRL bit 0 (10_state.md R34, R35, R38). -/
theorem writeReg_overrun (v : Word) (s : State) (at_ : WindowReg) :
    (writeReg v s at_).overrun = true ↔
      s.busy = true ∧ guarded at_ = true ∨
        s.overrun = true ∧ ¬ (at_ = .status ∧ v.getLsbD 3 = true) ∧
          ¬ (at_ = .ctrl ∧ v.getLsbD 0 = true) := by
  cases at_ with
  | cmd => cases hb : s.busy <;> simp [writeReg, hb, guarded]
  | ctrl =>
    cases hv : v.getLsbD 0 with
    | true => simp [writeReg_ctrl_reset hv, guarded, State.reset]
    | false => simp [writeReg_ctrl_noop hv, guarded]
  | operand r j =>
    cases hr : r.hostWritable <;> cases hb : s.busy <;> simp [writeReg, hr, hb, guarded]
  | _ => simp [writeReg, guarded]

/-- BUSY after any host write. -/
theorem busWrite_busy (off : Offset) (width : Nat) (v : Word) (s : State) :
    (busWrite off width v s).busy = true ↔
      (off = 0x010#12 ∧ width = 32) ∨
        s.busy = true ∧ ¬ (off = 0x020#12 ∧ width = 32 ∧ v.getLsbD 0 = true) := by
  cases hl : legalAccess off width with
  | true =>
    obtain ⟨hwidth, -⟩ := (legalAccess_iff off width).mp hl
    rw [busWrite_legal hl]
    simp [writeReg_busy, locate_eq_cmd_iff, locate_eq_ctrl_iff, hwidth]
  | false =>
    have hcmd : ¬ (off = 0x010#12 ∧ width = 32) := by rintro ⟨rfl, rfl⟩; cases hl
    have hctrl : ¬ (off = 0x020#12 ∧ width = 32) := by rintro ⟨rfl, rfl⟩; cases hl
    rw [busWrite_illegal hl]
    tauto

/-- OVERRUN after any host write. -/
theorem busWrite_overrun (off : Offset) (width : Nat) (v : Word) (s : State) :
    (busWrite off width v s).overrun = true ↔
      (s.busy = true ∧ width = 32 ∧ off.toNat % 4 = 0 ∧
        (off.toNat = 0x010 ∨ 0x100 ≤ off.toNat ∧ off.toNat ≤ 0x5FC)) ∨
      s.overrun = true ∧ ¬ (off = 0x014#12 ∧ width = 32 ∧ v.getLsbD 3 = true) ∧
        ¬ (off = 0x020#12 ∧ width = 32 ∧ v.getLsbD 0 = true) := by
  cases hl : legalAccess off width with
  | true =>
    obtain ⟨hwidth, halign⟩ := (legalAccess_iff off width).mp hl
    rw [busWrite_legal hl]
    simp [writeReg_overrun, locate_eq_status_iff, locate_eq_ctrl_iff, guarded_locate_aligned halign,
      hwidth, halign]
  | false =>
    have hlegal : ¬ (width = 32 ∧ off.toNat % 4 = 0) := by simp [← legalAccess_iff, hl]
    have hstatus : ¬ (off = 0x014#12 ∧ width = 32) := by rintro ⟨rfl, rfl⟩; cases hl
    have hctrl : ¬ (off = 0x020#12 ∧ width = 32) := by rintro ⟨rfl, rfl⟩; cases hl
    rw [busWrite_illegal hl]
    tauto

/-- Of the host writes only a soft reset clears BUSY (10_state.md R31). -/
theorem busWrite_clears_busy {s : State} (hs : s.busy = true) (off : Offset) (width : Nat) (v : Word) :
    (busWrite off width v s).busy = false ↔ off = 0x020#12 ∧ width = 32 ∧ v.getLsbD 0 = true := by
  have hctrl : off = 0x020#12 → off ≠ 0x010#12 := by rintro rfl; decide
  rw [← Bool.not_eq_true, busWrite_busy]
  tauto

/-- Of the host writes only a 1 in STATUS bit 3 or a soft reset clears OVERRUN (10_state.md R34). -/
theorem busWrite_clears_overrun {s : State} (hs : s.overrun = true) (off : Offset) (width : Nat)
    (v : Word) :
    (busWrite off width v s).overrun = false ↔
      off = 0x014#12 ∧ width = 32 ∧ v.getLsbD 3 = true ∨
        off = 0x020#12 ∧ width = 32 ∧ v.getLsbD 0 = true := by
  have hguarded : off = 0x014#12 ∨ off = 0x020#12 →
      ¬ (off.toNat = 0x010 ∨ 0x100 ≤ off.toNat ∧ off.toNat ≤ 0x5FC) := by
    rintro (rfl | rfl) <;> decide
  rw [← Bool.not_eq_true, busWrite_overrun]
  constructor
  · intro hkept
    by_contra hno
    exact hkept (.inr ⟨hs, fun h => hno (.inl h), fun h => hno (.inr h)⟩)
  · rintro hclear (⟨-, -, -, hset⟩ | ⟨-, hstatus, hctrl⟩)
    · exact hguarded (hclear.imp And.left And.left) hset
    · exact hclear.elim hstatus hctrl

/-! ### what the unit's move does to them -/

/-- After its move the unit is idle, as it was or by a completion, and OVERRUN is as before (10_state.md R34,
R40). -/
theorem unitStep_busy_overrun {s t : State} (h : unitStep s = .next t) :
    t.busy = false ∧ t.overrun = s.overrun := by
  rcases unitStep_cases s with ⟨hidle, u⟩ | ⟨-, _, u⟩ | ⟨-, _, u⟩ | ⟨-, _, u⟩ | ⟨-, _, -, -, u⟩ <;>
    cases u.symm.trans h
  · exact ⟨hidle, rfl⟩
  all_goals exact ⟨rfl, rfl⟩

/-- Settles O30, by the move: a write (`busWrite_busy`), the unit's, a read or a reset. -/
theorem busyChangesOnlySo : Obligations.BusyChangesOnlySo := by
  intro ev s t h
  cases ev with
  | read off width => cases h; simp [busRead]
  | write off width data =>
    cases h
    exact ⟨fun hs => by simp [busWrite_busy, hs],
      fun hs => by simp [busWrite_clears_busy hs, and_assoc]⟩
  | unit => simp [(unitStep_busy_overrun h).1]
  | hardwareReset => cases h; simp [State.reset]

/-- Settles O31, by the move: a write (`busWrite_overrun`), the unit's, a read or a reset. -/
theorem overrunChangesOnlySo : Obligations.OverrunChangesOnlySo := by
  intro ev s t h
  refine ⟨fun hs => ?_, fun hbusy off w hev halign hrange => ?_, fun hs => ?_⟩
  · cases ev with
    | read off width => cases h; simp [busRead, hs]
    | write off width data =>
      cases h
      simp [busWrite_overrun, hs]
    | unit => simp [(unitStep_busy_overrun h).2, hs]
    | hardwareReset => cases h; simp [State.reset]
  · subst hev
    cases h
    rw [busWrite_legal ((legalAccess_iff off 32).mpr ⟨rfl, halign⟩),
      writeReg_guarded_busy ((guarded_locate_aligned halign).mpr hrange) hbusy, State.markOverrun]
  · cases ev with
    | read off width => cases h; simp [busRead, hs]
    | write off width data =>
      cases h
      simp [busWrite_clears_overrun hs, and_assoc]
    | unit => simp [(unitStep_busy_overrun h).2, hs]
    | hardwareReset => cases h; simp [State.reset]

end Sys2Proof.Proofs
end

section
/-! PROOFS. What a command's outcome depends on (10_state.md R23). -/

namespace Sys2Proof.Proofs

open Sys2Proof Sys2Proof.Machine Sys2Proof.Claims

/-! ### a completion on another register file -/

/-- The state with another register file. -/
abbrev withRegs (s : State) (f : OperandFile) : State := { s with regs := f }

/-- The outcomes o of a command on s and o' on the registers f are the same but for the registers it does not
write, which each keeps (10_state.md R23). -/
def CompletesAlike (i : Instr) (s : State) (f : OperandFile) (o o' : Host.Outcome State Fault Refusal) :
    Prop :=
  ∃ t u : State, o = .next t ∧ o' = .next u ∧ u = withRegs t u.regs ∧
    (∀ r, r ∉ writesOf i → t.reg r = s.reg r ∧ u.reg r = f.get r) ∧
    (s.error = false → t.error = false → ∀ r ∈ writesOf i, u.reg r = t.reg r) ∧
    (s.error = false → t.error = true → ∀ r, t.reg r = s.reg r ∧ u.reg r = f.get r)

/-- The same error raised on both: no register is written. -/
theorem raise_alike (i : Instr) (s : State) (f : OperandFile) (err : CmdError) :
    CompletesAlike i s f (.next (s.raise err)) (.next ((withRegs s f).raise err)) :=
  ⟨s.raise err, (withRegs s f).raise err, rfl, rfl, rfl, fun _ _ => ⟨rfl, rfl⟩,
    fun _ hok => Bool.noConfusion hok, fun _ _ _ => ⟨rfl, rfl⟩⟩

/-- A success that writes the same value to RES0 on both. -/
theorem set_res0_alike {i : Instr} (hw : writesOf i = [.res0]) {s t : State} (f : OperandFile)
    {x : Operand} (hregs : t.regs = s.regs.set .res0 x) (herr : t.error = s.error) :
    CompletesAlike i s f (.next t) (.next (withRegs t (f.set .res0 x))) := by
  refine ⟨t, _, rfl, rfl, rfl, fun r hr => ?_, fun _ _ r hr => ?_, fun hs ht => ?_⟩
  · have hne : r ≠ .res0 := by simpa [hw] using hr
    simp only [reg_def, hregs, OperandFile.get_set_ne _ _ hne, and_self]
  · obtain rfl : r = .res0 := by simpa [hw] using hr
    simp only [reg_def, hregs, OperandFile.get_set_same]
  · cases hs.symm.trans (herr.symm.trans ht)

/-- The same point returned on both. -/
theorem returnPoint_alike {i : Instr} (hw : writesOf i = [.res0, .res1]) (s : State) (f : OperandFile)
    (p : Nat × Nat) :
    CompletesAlike i s f (.next (s.returnPoint p)) (.next ((withRegs s f).returnPoint p)) := by
  refine ⟨s.returnPoint p, (withRegs s f).returnPoint p, rfl, rfl, rfl, fun r hr => ?_,
    fun _ _ r hr => ?_, fun hs ht => ?_⟩
  · obtain ⟨h0, h1⟩ : r ≠ .res0 ∧ r ≠ .res1 := by simpa [hw] using hr
    simp only [reg_def, returnPoint_regs, OperandFile.get_set_ne _ _ h0, OperandFile.get_set_ne _ _ h1,
      and_self]
  · have hr' : r = .res0 ∨ r = .res1 := by simpa [hw] using hr
    rcases hr' with rfl | rfl <;> simp [returnPoint_reg]
  · cases hs.symm.trans ht

/-! ### the shared completions -/

/-- A completion with one value, by the same checks and the same value on both. -/
theorem completeOne_alike {i : Instr} (hw : writesOf i = [.res0]) {s : State} {f : OperandFile}
    {cs cs' : List Check} {v v' : Nat} (hcs : cs' = cs) (hv : v' = v) :
    CompletesAlike i s f (.next (s.completeOne cs v)) (.next ((withRegs s f).completeOne cs' v')) := by
  subst hcs hv
  unfold State.completeOne
  cases firstError cs' with
  | some err => exact raise_alike i s f err
  | none => exact set_res0_alike hw f (t := s.returnOne v') rfl rfl

/-- A completion with a point, by the same checks and the same computation on both. -/
theorem completePoint_alike {i : Instr} (hw : writesOf i = [.res0, .res1]) {s : State} {f : OperandFile}
    {cs cs' : List Check} {v v' : Except CmdError (Nat × Nat)} (hcs : cs' = cs) (hv : v' = v) :
    CompletesAlike i s f (.next (s.completePoint cs v))
      (.next ((withRegs s f).completePoint cs' v')) := by
  subst hcs hv
  unfold State.completePoint
  cases firstError cs' with
  | some err => exact raise_alike i s f err
  | none =>
    cases v' with
    | error err => exact raise_alike i s f err
    | ok p => exact returnPoint_alike hw s f p

/-- MR_TEST, by the same N on both: the same checks, and the same rounds from the same port. -/
theorem execMrTest_alike (k : Nat) {s : State} {f : OperandFile}
    (hn : (withRegs s f).val .n = s.val .n) :
    CompletesAlike (.mrTest k) s f (execMrTest k s) (execMrTest k (withRegs s f)) := by
  have hcheck : checkOddMod (withRegs s f) 5 = checkOddMod s 5 := by simp only [checkOddMod, hn]
  have htest : (withRegs s f).afterTest k = withRegs (s.afterTest k)
      (f.set .res0 (BitVec.ofNat Config.opw (boolValue (mrRounds (s.val .n) k 0 s.rng).1))) := by
    simp only [State.afterTest, hn]
    rfl
  rw [execMrTest_eq, execMrTest_eq, hcheck, htest]
  cases firstError [checkOddMod s 5, (decide (k = 0), .roundsZero)] with
  | some err => exact raise_alike _ s f err
  | none => exact set_res0_alike rfl f (t := s.afterTest k) rfl rfl

/-! ### the commands -/

/-- Registers that agree hold the same values. -/
theorem val_withRegs {s : State} {f : OperandFile} {r : Reg} (h : f.get r = s.regs.get r) :
    (withRegs s f).val r = s.val r :=
  congrArg BitVec.toNat h

/-- Settles O13, command by command: its checks and its result read the listed registers only. -/
theorem commandReadsOnlyItsRegisters : Obligations.CommandReadsOnlyItsRegisters := by
  intro i s f hf
  show CompletesAlike i s f (exec i s) (exec i (withRegs s f))
  have hval : ∀ r ∈ readsOf i, (withRegs s f).val r = s.val r := fun r hr => val_withRegs (hf r hr)
  cases i with
  | mrTest k => exact execMrTest_alike k (hval .n (by simp [readsOf]))
  | ecDbl k | ecAdd k | ecSmul k =>
    simp only [readsOf, List.forall_mem_cons] at hval
    apply completePoint_alike rfl <;>
      simp only [checkOddMod, curveChecks, checkBelow, checkP, checkQ, State.onCurve, State.pointP,
        State.pointQ, hval]
  | modmul k | montmul k | montTo k | montFrom k | modexp k | modinv k | mrRound k | ecCheck k =>
    simp only [readsOf, List.forall_mem_cons] at hval
    apply completeOne_alike rfl <;>
      simp only [checkOddMod, checkModulus, curveChecks, checkBelow, State.onCurve, State.pointP, hval]

end Sys2Proof.Proofs
end

section
/-! PROOFS. What a host access answers: the word a legal read returns at each offset, and the refusal of any
other access (20_memory.md R62 to R64, R66). -/

namespace Sys2Proof.Proofs

open Sys2Proof Sys2Proof.Machine Sys2Proof.Claims

/-! ### the packed control registers as numbers -/

/-- Fields put side by side, as a number: the high one is scaled by the width of the low one. -/
theorem append_toNat {n m : Nat} (x : BitVec n) (y : BitVec m) :
    (x ++ y).toNat = 2 ^ m * x.toNat + y.toNat := by
  rw [BitVec.toNat_append, Nat.shiftLeft_eq, Nat.mul_comm, Nat.two_pow_add_eq_or_of_lt y.isLt]

/-- A flag's bit, as a number. -/
theorem bit_toNat (b : Bool) : (bit b).toNat = flag b := by
  cases b <;> rfl

/-- STATUS as a read returns it, as a number (10_state.md R30). -/
theorem statusWord_toNat (s : State) :
    (statusWord s).toNat = flag s.busy + 2 * flag s.done + 4 * flag s.error + 8 * flag s.overrun +
      256 * s.errCode.toNat + 4096 * s.errDetail.toNat := by
  simp only [statusWord, append_toNat, bit_toNat, BitVec.toNat_ofNat]
  omega

/-- ROUNDS_DONE as a read returns it, as a number (10_state.md R37). -/
theorem roundsDoneWord_toNat (s : State) : (roundsDoneWord s).toNat = s.roundsDone.toNat := by
  simp only [roundsDoneWord, append_toNat, BitVec.toNat_ofNat]
  omega

/-! ### what stands at an offset -/

/-- No register has index 12 or more (10_state.md R21). -/
theorem regOfIndex_eq_none {i : Nat} (h : Config.nreg ≤ i) : regOfIndex i = none := by
  obtain ⟨k, rfl⟩ := Nat.exists_eq_add_of_le' h
  rfl

/-- At a reserved offset stands no register (10_state.md R25, R39). -/
theorem locate_reserved {off : Nat} (h : ReservedOffset off) : locate off = .reserved := by
  unfold locate
  rcases h with rfl | ⟨hlo, hhi⟩ | ⟨hlo, -⟩
  · rfl
  · rw [if_neg (by omega)]
    split
    case h_9 => rfl
    all_goals omega
  · have hindex : Config.nreg ≤ (off - 0x100) / 128 := by simp only [Config.nreg]; omega
    rw [if_pos (by omega), regBytes_eq, regOfIndex_eq_none hindex]

/-- A read at an offset shows the register that stands there. -/
theorem readWord_of_locate {o : Nat} {at_ : WindowReg} (hat : locate o = at_) (s : State) {off : Offset}
    (hoff : off.toNat = o) : readWord s off = readReg s at_ := by
  rw [readWord, hoff, hat]

/-! ### accesses -/

/-- Settles O19, by what stands at the offset: a control register, reserved space or a word of an operand. -/
theorem legalReadReturnsRegister : Obligations.LegalReadReturnsRegister := by
  intro s off halign
  refine ⟨readWord s off, busRead_legal ((legalAccess_iff off 32).mpr ⟨rfl, halign⟩) s,
    readWord_of_locate (at_ := .id) rfl s, readWord_of_locate (at_ := .version) rfl s,
    fun hoff => ?config, readWord_of_locate (at_ := .cmd) rfl s, fun hoff => ?status,
    fun hoff => ?irqEn, fun hoff => ?roundsDone, readWord_of_locate (at_ := .ctrl) rfl s,
    fun hres => readWord_of_locate (locate_reserved hres) s rfl, fun i j r hr hj hoff => ?operand⟩
  case config => exact (readWord_of_locate (at_ := .config) rfl s hoff).trans configWord_eq
  case status => rw [readWord_of_locate (at_ := .status) rfl s hoff, readReg, statusWord_toNat]
  case irqEn => rw [readWord_of_locate (at_ := .irqEn) rfl s hoff, readReg, irqEnWord_toNat]
  case roundsDone =>
    rw [readWord_of_locate (at_ := .roundsDone) rfl s hoff, readReg, roundsDoneWord_toNat]
  case operand =>
    rw [← opww_eq] at hj
    have hat : off = operandOffset r j := by
      rw [← operandOffset_eq hr, ← hoff, BitVec.ofNat_toNat, BitVec.setWidth_eq]
    rw [hat, readWord_operandOffset s r hj, operandWord_toNat, State.val]

/-- Settles O20: such an access is not legal. -/
theorem illegalAccessRefused : Obligations.IllegalAccessRefused := by
  intro s off width v hbad
  have hillegal : legalAccess off width = false := by
    rw [← Bool.not_eq_true, legalAccess_iff, not_and_or]
    exact hbad
  exact ⟨busRead_illegal hillegal s, busWrite_illegal hillegal v s⟩

end Sys2Proof.Proofs
end

section
/-! PROOFS. Which words decode, and that no command but MR_TEST depends on ROUNDS (30_encoding.md R80 to R86). -/

namespace Sys2Proof.Proofs

open Sys2Proof Sys2Proof.Machine Sys2Proof.Claims

/-! ### the fields of a word as numbers -/

/-- OPCODE, bits 7:0 (30_encoding.md R80). -/
theorem opcodeField_eq (w : Word) : opcodeField w = w.toNat % 256 :=
  BitVec.extractLsb'_toNat 0 8 w

/-- ROUNDS, bits 15:8 (30_encoding.md R80, R82). -/
theorem roundsField_eq (w : Word) : roundsField w = w.toNat / 256 % 256 := by
  rw [roundsField, BitVec.extractLsb'_toNat, Nat.shiftRight_eq_div_pow]

/-- RSV, bits 31:16, the rest of the word (30_encoding.md R80). -/
theorem reservedField_eq (w : Word) : reservedField w = w.toNat / 65536 := by
  rw [reservedField, BitVec.extractLsb'_toNat, Nat.shiftRight_eq_div_pow]
  have := w.isLt
  omega

/-! ### what decoding answers -/

/-- The opcodes without a command are the undefined ones (30_encoding.md R86). -/
theorem commandOf_eq_none_iff (o r : Nat) : commandOf o r = none ↔ o ∉ definedOpcodes := by
  unfold commandOf definedOpcodes
  split
  case h_13 => simp_all -- the line of the table without a command
  all_goals simp

/-- A word with an undefined OPCODE is illegal, whatever its other bits (30_encoding.md R81, R86). -/
theorem decode_undefinedOpcode {w : Word} (hop : w.toNat % 256 ∉ definedOpcodes) :
    decode w = .error .undefinedOpcode := by
  rw [decode, opcodeField_eq, (commandOf_eq_none_iff _ _).mpr hop]

/-- A word with a defined OPCODE selects a command, which it encodes exactly when RSV = 0
(30_encoding.md R81, R83). -/
theorem decode_definedOpcode {w : Word} (hop : w.toNat % 256 ∈ definedOpcodes) :
    ∃ i, commandOf (w.toNat % 256) (roundsField w) = some i ∧
      decode w = if w.toNat / 65536 = 0 then .ok i else .error .reservedBits := by
  obtain ⟨i, hi⟩ := Option.ne_none_iff_exists'.mp
    fun hnone => (commandOf_eq_none_iff (w.toNat % 256) (roundsField w)).mp hnone hop
  exact ⟨i, hi, by rw [decode, opcodeField_eq, hi, reservedField_eq]⟩

/-- A word with a defined OPCODE and RSV ≠ 0 is illegal (30_encoding.md R83). -/
theorem decode_reservedBits {w : Word} (hop : w.toNat % 256 ∈ definedOpcodes)
    (hrsv : w.toNat / 65536 ≠ 0) : decode w = .error .reservedBits := by
  obtain ⟨i, -, hd⟩ := decode_definedOpcode hop
  rw [hd, if_neg hrsv]

/-! ### a CMD write and the unit's move -/

/-- A list of one move is that move. -/
theorem runEvents_singleton (ev : Event) (s : State) : runEvents [ev] s = stepEvent ev s := by
  rw [runEvents]
  cases stepEvent ev s <;> rfl

/-- A word written to CMD while idle starts the unit, which then moves (10_state.md R29, R40). -/
theorem runEvents_cmd_unit {s : State} (hidle : s.busy = false) (w : Word) :
    runEvents [.write 0x010#12 32 w, .unit] s =
      unitStep { s.start w with response := some .writeOk } := by
  obtain ⟨hwrite, -, -⟩ := commandWriteStarts s w
  rw [runEvents, stepEvent, hwrite hidle]
  exact runEvents_singleton .unit _

/-- An illegal word written to CMD completes with its error, and nothing else changes (30_encoding.md R81). -/
theorem runEvents_illegalWord {s : State} (hidle : s.busy = false) {w : Word} {why : IllegalWord}
    (hd : decode w = .error why) :
    runEvents [.write 0x010#12 32 w, .unit] s =
      .next (State.raise { s.start w with response := some .writeOk } (illegalError why)) :=
  (runEvents_cmd_unit hidle w).trans (unitStep_illegal rfl hd)

/-- Settles O4, by why the word does not decode. -/
theorem illegalWordCompletes : Obligations.IllegalWordCompletes := by
  intro s w hidle
  exact ⟨fun hop => runEvents_illegalWord hidle (decode_undefinedOpcode hop),
    fun hop hrsv => runEvents_illegalWord hidle (decode_reservedBits hop hrsv)⟩

/-! ### no command reads CMD, and only MR_TEST takes ROUNDS -/

/-- The state with another word in CMD. -/
abbrev withCmd (s : State) (w : Word) : State := { s with cmd := w }

/-- A completion with one value neither reads nor writes CMD. -/
theorem completeOne_withCmd (s : State) (w : Word) (cs : List Check) (v : Nat) :
    (withCmd s w).completeOne cs v = withCmd (s.completeOne cs v) w := by
  unfold State.completeOne
  cases firstError cs <;> rfl

/-- A completion with a point neither reads nor writes CMD. -/
theorem completePoint_withCmd (s : State) (w : Word) (cs : List Check)
    (v : Except CmdError (Nat × Nat)) :
    (withCmd s w).completePoint cs v = withCmd (s.completePoint cs v) w := by
  unfold State.completePoint
  cases firstError cs with
  | some err => rfl
  | none => cases v <;> rfl

/-- A command's completion neither reads nor writes CMD (10_state.md R40). -/
theorem exec_withCmd (i : Instr) (s : State) (w : Word) :
    ∃ t, exec i s = .next t ∧ exec i (withCmd s w) = .next (withCmd t w) := by
  cases i with
  | mrTest k =>
    have hcheck : checkOddMod (withCmd s w) 5 = checkOddMod s 5 := rfl
    simp only [exec, execMrTest_eq, hcheck]
    cases firstError [checkOddMod s 5, (decide (k = 0), .roundsZero)] with
    | some err => exact ⟨_, rfl, rfl⟩
    | none => exact ⟨_, rfl, rfl⟩
  | ecDbl k | ecAdd k | ecSmul k => exact ⟨_, rfl, congrArg _ (completePoint_withCmd s w _ _)⟩
  | modmul k | montmul k | montTo k | montFrom k | modexp k | modinv k | mrRound k | ecCheck k =>
    exact ⟨_, rfl, congrArg _ (completeOne_withCmd s w _ _)⟩

/-- What an OPCODE does, but MR_TEST's, is the same for every ROUNDS (30_encoding.md R82). -/
theorem commandOf_exec_rounds {o : Nat} (htest : o ≠ 0x11) (r r' : Nat) :
    (commandOf o r).map exec = (commandOf o r').map exec := by
  unfold commandOf
  split
  case h_8 => exact absurd rfl htest
  all_goals rfl

/-- Words that differ in ROUNDS only, of an OPCODE other than MR_TEST's, are illegal for the same reason or
encode commands of the same effect (30_encoding.md R82). -/
theorem decode_rounds {w w' : Word} (hop : w.toNat % 256 = w'.toNat % 256)
    (hrsv : w.toNat / 65536 = w'.toNat / 65536) (htest : w.toNat % 256 ≠ 0x11) :
    (∃ why, decode w = .error why ∧ decode w' = .error why) ∨
      ∃ i i', decode w = .ok i ∧ decode w' = .ok i' ∧ exec i = exec i' := by
  by_cases hdef : w.toNat % 256 ∈ definedOpcodes
  · obtain ⟨i, hi, hd⟩ := decode_definedOpcode hdef
    obtain ⟨i', hi', hd'⟩ := decode_definedOpcode (hop ▸ hdef)
    by_cases hzero : w.toNat / 65536 = 0
    · have hexec := commandOf_exec_rounds htest (roundsField w) (roundsField w')
      rw [hi, hop, hi'] at hexec
      exact .inr ⟨i, i', hd.trans (if_pos hzero), hd'.trans (if_pos (hrsv ▸ hzero)),
        Option.some.inj hexec⟩
    · exact .inl ⟨_, hd.trans (if_neg hzero), hd'.trans (if_neg (hrsv ▸ hzero))⟩
  · exact .inl ⟨_, decode_undefinedOpcode hdef, decode_undefinedOpcode (hop ▸ hdef)⟩

/-- Settles O5, by the unit's move: idle, on illegal words, or on commands of the same effect. -/
theorem onlyTestReadsRounds : Obligations.OnlyTestReadsRounds := by
  refine ⟨fun w k h => ?_, fun s w w' hop hrsv htest => ?_⟩
  · obtain ⟨-, hrounds, -⟩ := Laws.decode_ok h
    exact hrounds.trans (roundsField_eq w)
  · rcases Bool.eq_false_or_eq_true s.busy with hbusy | hidle
    · rcases decode_rounds hop hrsv htest with ⟨why, hd, hd'⟩ | ⟨i, i', hd, hd', hexec⟩
      · exact ⟨_, unitStep_illegal hbusy hd, unitStep_illegal hbusy hd'⟩
      · obtain ⟨t, ht, ht'⟩ := exec_withCmd i (withCmd s w) w'
        exact ⟨t, (unitStep_decoded (s := withCmd s w) hbusy hd).trans ht,
          (unitStep_decoded (s := withCmd s w') hbusy hd').trans (hexec ▸ ht')⟩
    · exact ⟨_, unitStep_idle hidle, unitStep_idle hidle⟩

end Sys2Proof.Proofs
end

section
/-! PROOFS. The Montgomery multiplier: the values of MODMUL, MONTMUL, MONT_TO and MONT_FROM with their ordered
checks, and the laws of the Montgomery domain (40_montgomery_multiplier.md R101 to R105). -/

namespace Sys2Proof.Proofs

open Sys2Proof Sys2Proof.Machine Sys2Proof.Claims

/-! ### a completion with one value, check by check -/

/-- With no check left the value is returned (10_state.md R40). -/
theorem completeOne_nil (s : State) (v : Nat) : s.completeOne [] v = oneResult s v := rfl

/-- A check that passes leaves the outcome to the checks after it (60_exceptions.md R204). -/
theorem completeOne_of_passes {c : Check} (h : c.1 = false) (s : State) (cs : List Check) (v : Nat) :
    s.completeOne (c :: cs) v = s.completeOne cs v := by
  obtain ⟨fails, err⟩ := c
  subst h
  rfl

/-- The first check that fails is reported (60_exceptions.md R204). -/
theorem completeOne_of_fails {c : Check} (h : c.1 = true) (s : State) (cs : List Check) (v : Nat) :
    s.completeOne (c :: cs) v = s.raise c.2 := by
  obtain ⟨fails, err⟩ := c
  subst h
  rfl

/-- A outside its interval is OUT_OF_RANGE/2 (60_exceptions.md R202). -/
theorem raise_aRange (s : State) : s.raise .aRange = failed s 3 2 := rfl

/-- B outside its interval is OUT_OF_RANGE/3 (60_exceptions.md R202). -/
theorem raise_bRange (s : State) : s.raise .bRange = failed s 3 3 := rfl

/-- The modulus check passes (R100). -/
theorem completeOne_oddMod {s : State} {least : Nat} (h : OddMod s least) (cs : List Check) (v : Nat) :
    s.completeOne (checkOddMod s least :: cs) v = s.completeOne cs v :=
  completeOne_of_passes ((checkOddMod_passes s least).mpr h) s cs v

/-- The modulus check fails with OUT_OF_RANGE/1 (R100). -/
theorem completeOne_not_oddMod {s : State} {least : Nat} (h : ¬ OddMod s least) (cs : List Check) (v : Nat) :
    s.completeOne (checkOddMod s least :: cs) v = failed s 3 1 := by
  rw [OddMod, ← checkOddMod_passes, Bool.not_eq_false] at h
  exact completeOne_of_fails h s cs v

/-- A residue's check passes (R100). -/
theorem completeOne_below {s : State} {r : Reg} (h : s.val r < s.val .n) (err : CmdError)
    (cs : List Check) (v : Nat) : s.completeOne (checkBelow s r err :: cs) v = s.completeOne cs v :=
  completeOne_of_passes ((checkBelow_passes s r err).mpr h) s cs v

/-- A residue's check fails with its error (R100). -/
theorem completeOne_not_below {s : State} {r : Reg} (h : s.val .n ≤ s.val r) (err : CmdError)
    (cs : List Check) (v : Nat) : s.completeOne (checkBelow s r err :: cs) v = s.raise err := by
  rw [← Nat.not_lt, ← checkBelow_passes s r err, Bool.not_eq_false] at h
  exact completeOne_of_fails h s cs v

/-! ### commands on residues -/

/-- A command that checks N and the residue A and returns v (R103, R104). -/
theorem exec_oneResidue {i : Instr} {s : State} {v : Nat}
    (hi : exec i s = .next (s.completeOne [checkOddMod s 3, checkBelow s .a .aRange] v)) :
    (OddMod s 3 → s.val .a < s.val .n → exec i s = .next (oneResult s v)) ∧
      (¬ OddMod s 3 → exec i s = .next (failed s 3 1)) ∧
      (OddMod s 3 → s.val .n ≤ s.val .a → exec i s = .next (failed s 3 2)) := by
  rw [hi]
  refine ⟨fun hn ha => ?_, fun hn => ?_, fun hn ha => ?_⟩
  · rw [completeOne_oddMod hn, completeOne_below ha, completeOne_nil]
  · rw [completeOne_not_oddMod hn]
  · rw [completeOne_oddMod hn, completeOne_not_below ha, raise_aRange]

/-- A command that checks N and the residues A and B and returns v (R101, R102). -/
theorem exec_twoResidues {i : Instr} {s : State} {v : Nat}
    (hi : exec i s = .next
      (s.completeOne [checkOddMod s 3, checkBelow s .a .aRange, checkBelow s .b .bRange] v)) :
    (OddMod s 3 → s.val .a < s.val .n → s.val .b < s.val .n → exec i s = .next (oneResult s v)) ∧
      (¬ OddMod s 3 → exec i s = .next (failed s 3 1)) ∧
      (OddMod s 3 → s.val .n ≤ s.val .a → exec i s = .next (failed s 3 2)) ∧
      (OddMod s 3 → s.val .a < s.val .n → s.val .n ≤ s.val .b → exec i s = .next (failed s 3 3)) := by
  rw [hi]
  refine ⟨fun hn ha hb => ?_, fun hn => ?_, fun hn ha => ?_, fun hn ha hb => ?_⟩
  · rw [completeOne_oddMod hn, completeOne_below ha, completeOne_below hb, completeOne_nil]
  · rw [completeOne_not_oddMod hn]
  · rw [completeOne_oddMod hn, completeOne_not_below ha, raise_aRange]
  · rw [completeOne_oddMod hn, completeOne_below ha, completeOne_not_below hb, raise_bRange]

/-- An odd modulus is positive. -/
theorem modulus_pos {s : State} {least : Nat} (hn : OddMod s least) : 0 < s.val .n :=
  Nat.pos_of_ne_zero fun h0 => by simp [OddMod, h0] at hn

/-- Settles O37: MODMUL is a command on two residues that returns A·B mod N. -/
theorem modmulProduct : Obligations.ModmulProduct := fun _ _ => exec_twoResidues rfl

/-- Settles O38: the value MONTMUL returns is A·B·Rinv mod N, which `radixInv_spec` multiplies back by R. -/
theorem montmulProduct : Obligations.MontmulProduct := by
  intro k s
  obtain ⟨hok, herrors⟩ := exec_twoResidues (i := .montmul k) (s := s) rfl
  exact ⟨fun hn ha hb => ⟨_, Nat.mod_lt _ (modulus_pos hn), radixInv_spec _ (modulus_pos hn) hn.1,
    hok hn ha hb⟩, herrors⟩

/-- Settles O39: MONT_TO is a command on one residue that returns A·R mod N. -/
theorem montToForm : Obligations.MontToForm := fun _ _ => exec_oneResidue rfl

/-- Settles O40: the value MONT_FROM returns is A·Rinv mod N, which `radixInv_spec` multiplies back by R. -/
theorem montFromForm : Obligations.MontFromForm := by
  intro k s
  obtain ⟨hok, herrors⟩ := exec_oneResidue (i := .montFrom k) (s := s) rfl
  exact ⟨fun hn ha => ⟨_, Nat.mod_lt _ (modulus_pos hn),
    Nat.mod_eq_of_modEq (radixInv_spec _ (modulus_pos hn) hn.1) ha, hok hn ha⟩, herrors⟩

/-! ### the answers on chosen operands -/

@[simp] theorem withAB_val_n (s : State) (a b : Nat) : (withAB s a b).val .n = s.val .n := rfl

/-- A holds the value put in it, where it fits a register. -/
theorem withAB_val_a (s : State) {a : Nat} (b : Nat) (ha : a < 2 ^ Config.opw) :
    (withAB s a b).val .a = a :=
  Nat.mod_eq_of_lt ha

/-- B holds the value put in it, where it fits a register. -/
theorem withAB_val_b (s : State) (a : Nat) {b : Nat} (hb : b < 2 ^ Config.opw) :
    (withAB s a b).val .b = b :=
  Nat.mod_eq_of_lt hb

/-- A command that succeeds with a value that fits a register answers that value. -/
theorem answer_eq_some {i : Instr} {s : State} {v : Nat} (hok : exec i s = .next (oneResult s v))
    (herr : s.error = false) (hv : v < 2 ^ Config.opw) : answer i s = some v := by
  have hval : (oneResult s v).val .res0 = v := Nat.mod_eq_of_lt hv
  have hnone : (oneResult s v).error = false := herr
  simp only [answer, hok, hnone, hval, Bool.false_eq_true, if_false]

section answers

variable {i : Instr} {s : State} {a b : Nat}

/-- A command on one residue answers its value at A = a (R103, R104). -/
theorem answer_oneResidue {f : Nat → Nat} (herr : s.error = false) (hn : OddMod s 3)
    (ha : a < s.val .n)
    (hi : exec i (withAB s a b) = .next ((withAB s a b).completeOne
      [checkOddMod (withAB s a b) 3, checkBelow (withAB s a b) .a .aRange]
      (f ((withAB s a b).val .a) % s.val .n))) :
    answer i (withAB s a b) = some (f a % s.val .n) := by
  have hva := withAB_val_a s b (ha.trans (val_lt s .n))
  obtain ⟨hok, -⟩ := exec_oneResidue hi
  rw [hva] at hok
  exact answer_eq_some (hok hn ha) herr ((Nat.mod_lt _ (modulus_pos hn)).trans (val_lt s .n))

/-- A command on two residues answers its value at A = a, B = b (R101, R102). -/
theorem answer_twoResidues {f : Nat → Nat → Nat} (herr : s.error = false) (hn : OddMod s 3)
    (ha : a < s.val .n) (hb : b < s.val .n)
    (hi : exec i (withAB s a b) = .next ((withAB s a b).completeOne
      [checkOddMod (withAB s a b) 3, checkBelow (withAB s a b) .a .aRange,
        checkBelow (withAB s a b) .b .bRange]
      (f ((withAB s a b).val .a) ((withAB s a b).val .b) % s.val .n))) :
    answer i (withAB s a b) = some (f a b % s.val .n) := by
  have hva := withAB_val_a s b (ha.trans (val_lt s .n))
  have hvb := withAB_val_b s a (hb.trans (val_lt s .n))
  obtain ⟨hok, -⟩ := exec_twoResidues hi
  rw [hva, hvb] at hok
  exact answer_eq_some (hok hn ha hb) herr ((Nat.mod_lt _ (modulus_pos hn)).trans (val_lt s .n))

/-- MODMUL answers a·b mod N (R101). -/
theorem answer_modmul (herr : s.error = false) (hn : OddMod s 3) (ha : a < s.val .n)
    (hb : b < s.val .n) : answer (.modmul 0) (withAB s a b) = some (a * b % s.val .n) :=
  answer_twoResidues (f := fun x y => x * y) herr hn ha hb rfl

/-- MONTMUL answers a·b·Rinv mod N (R102). -/
theorem answer_montmul (herr : s.error = false) (hn : OddMod s 3) (ha : a < s.val .n)
    (hb : b < s.val .n) :
    answer (.montmul 0) (withAB s a b) = some (a * b * radixInv (s.val .n) % s.val .n) :=
  answer_twoResidues (f := fun x y => x * y * radixInv (s.val .n)) herr hn ha hb rfl

/-- MONT_TO answers a·R mod N (R103). -/
theorem answer_montTo (herr : s.error = false) (hn : OddMod s 3) (ha : a < s.val .n) :
    answer (.montTo 0) (withAB s a b) = some (a * Config.radix % s.val .n) :=
  answer_oneResidue (f := fun x => x * Config.radix) herr hn ha rfl

/-- MONT_FROM answers a·Rinv mod N (R104). -/
theorem answer_montFrom (herr : s.error = false) (hn : OddMod s 3) (ha : a < s.val .n) :
    answer (.montFrom 0) (withAB s a b) = some (a * radixInv (s.val .n) % s.val .n) :=
  answer_oneResidue (f := fun x => x * radixInv (s.val .n)) herr hn ha rfl

end answers

/-! ### the arithmetic of the Montgomery domain -/

section domain

variable {n : Nat} (hn : 0 < n) (hodd : n % 2 = 1)

include hn hodd

/-- Multiplying by R and then by Rinv gives the number back modulo an odd N (R100). -/
theorem mul_radix_radixInv (x : Nat) : x * Config.radix * radixInv n ≡ x [MOD n] := by
  have hinv := radixInv_spec 1 hn hodd
  rw [Nat.one_mul] at hinv
  calc x * Config.radix * radixInv n = x * (radixInv n * Config.radix) := by ring
    _ ≡ x * (radixInv n % n * Config.radix) [MOD n] :=
      ((Nat.mod_modEq _ _).symm.mul_right _).mul_left _
    _ ≡ x * 1 [MOD n] := hinv.mul_left x
    _ = x := Nat.mul_one x

/-- Out of Montgomery form what was taken into it is the same residue (R105). -/
theorem fromForm_toForm {a : Nat} (ha : a < n) : a * Config.radix % n * radixInv n % n = a :=
  Nat.mod_eq_of_modEq (((Nat.mod_modEq _ _).mul_right _).trans (mul_radix_radixInv hn hodd a)) ha

/-- The Montgomery product of two residues in Montgomery form is their product in that form (R105). -/
theorem montmul_toForm (a b : Nat) :
    a * Config.radix % n * (b * Config.radix % n) * radixInv n % n = a * b % n * Config.radix % n :=
  calc a * Config.radix % n * (b * Config.radix % n) * radixInv n
    _ ≡ a * Config.radix * (b * Config.radix) * radixInv n [MOD n] :=
      ((Nat.mod_modEq _ _).mul (Nat.mod_modEq _ _)).mul_right _
    _ = a * b * Config.radix * Config.radix * radixInv n := by ring
    _ ≡ a * b * Config.radix [MOD n] := mul_radix_radixInv hn hodd _
    _ ≡ a * b % n * Config.radix [MOD n] := (Nat.mod_modEq _ _).symm.mul_right _

end domain

/-- The product of residues is associative (R105). -/
theorem mulMod_assoc (a b c n : Nat) : a * b % n * c % n = a * (b * c % n) % n := by
  rw [Nat.mod_mul_mod, Nat.mul_mod_mod, Nat.mul_assoc]

/-- Settles O41: the answers are the residues named, and the laws are those of the Montgomery domain. -/
theorem montgomeryDomainLaws : Obligations.MontgomeryDomainLaws := by
  intro s a b c herr hn ha hb hc
  have hpos := modulus_pos hn
  have hlt : ∀ x, x % s.val .n < s.val .n := fun x => Nat.mod_lt x hpos
  have hmont := montmul_toForm hpos hn.1 a b
  refine ⟨a * Config.radix % s.val .n, b * Config.radix % s.val .n, a * b % s.val .n,
    a * b % s.val .n * Config.radix % s.val .n, b * c % s.val .n, a * b % s.val .n * c % s.val .n,
    a * radixInv (s.val .n) % s.val .n, a * b * radixInv (s.val .n) % s.val .n,
    answer_montTo herr hn ha, answer_montTo herr hn hb,
    answer_modmul herr hn ha hb, ?mulComm, ?fromTo, answer_montTo herr hn (hlt _), ?montmul, ?montmulComm,
    ?fromProduct, answer_modmul herr hn hb hc, answer_modmul herr hn (hlt _) hc, ?mulAssoc,
    answer_montFrom herr hn ha, answer_montmul herr hn ha hb, ?montComm,
    hlt _, hlt _, hlt _, hlt _, hlt _, hlt _, hlt _, hlt _⟩
  case mulComm => rw [answer_modmul herr hn hb ha, Nat.mul_comm]
  case fromTo => rw [answer_montFrom herr hn (hlt _), fromForm_toForm hpos hn.1 ha]
  case montmul => rw [answer_montmul herr hn (hlt _) (hlt _), hmont]
  case montmulComm => rw [answer_montmul herr hn (hlt _) (hlt _), Nat.mul_comm (b * _ % _), hmont]
  case fromProduct => rw [answer_montFrom herr hn (hlt _), fromForm_toForm hpos hn.1 (hlt _)]
  case mulAssoc => rw [answer_modmul herr hn ha (hlt _), mulMod_assoc]
  case montComm => rw [answer_montmul herr hn hb ha, Nat.mul_comm b]

end Sys2Proof.Proofs
end

section
/-! PROOFS. The modular exponentiation engine: the value of MODEXP with its ordered checks
(41_modular_exponentiation.md R120). -/

namespace Sys2Proof.Proofs

open Sys2Proof Sys2Proof.Machine Sys2Proof.Claims

/-- MODEXP checks N and the residue A, never E, and returns the power: every value of an operand register is below
2^OPW, which is what `powMod_eq` asks of E (R120). -/
theorem exec_modexp (k : Nat) (s : State) :
    exec (.modexp k) s = .next (s.completeOne [checkOddMod s 3, checkBelow s .a .aRange]
      (s.val .a ^ s.val .e % s.val .n)) := by
  rw [← powMod_eq _ _ _ (val_lt s .e)]
  rfl

/-- Settles O42: MODEXP is a command on one residue that returns A^E mod N. -/
theorem modexpPower : Obligations.ModexpPower := fun k s => exec_oneResidue (exec_modexp k s)

end Sys2Proof.Proofs
end

section
/-! PROOFS. The modular inverse unit: the value of MODINV with its ordered checks, and when it succeeds
(42_modular_inverse.md R130, R131). -/

namespace Sys2Proof.Proofs

open Sys2Proof Sys2Proof.Machine Sys2Proof.Claims

/-! ### the checks of MODINV -/

/-- The gcd condition of MODINV: A has an inverse modulo N (R130). -/
def checkCoprime (s : State) : Check :=
  (decide (Nat.gcd (s.val .a) (s.val .n) ≠ 1), .noInverseOperand)

/-- The checks of MODINV in their order: N, A, their gcd (R130). -/
def modinvChecks (s : State) : List Check :=
  [checkModulus s, checkBelow s .a .aRange, checkCoprime s]

/-- MODINV runs its checks and returns the machine's inverse (R130). -/
theorem exec_modinv (k : Nat) (s : State) :
    exec (.modinv k) s =
      .next (s.completeOne (modinvChecks s) (invMod (s.val .a) (s.val .n))) := rfl

/-- The modulus check of MODINV passes exactly for N ≥ 2 (R130). -/
theorem checkModulus_passes (s : State) : (checkModulus s).1 = false ↔ 2 ≤ s.val .n :=
  decide_eq_false_iff_not.trans Nat.not_lt

/-- The gcd check of MODINV passes exactly when A and N are coprime (R130). -/
theorem checkCoprime_passes (s : State) :
    (checkCoprime s).1 = false ↔ Nat.gcd (s.val .a) (s.val .n) = 1 := by
  simp [checkCoprime]

/-- Every check of MODINV passes exactly when the inverse exists (R131). -/
theorem modinvChecks_pass (s : State) :
    (∀ c ∈ modinvChecks s, c.1 = false) ↔
      2 ≤ s.val .n ∧ s.val .a < s.val .n ∧ Nat.gcd (s.val .a) (s.val .n) = 1 := by
  simp [modinvChecks, checkModulus_passes, checkBelow_passes, checkCoprime_passes]

/-- The modulus check of MODINV passes (R130). -/
theorem completeOne_modulus {s : State} (h : 2 ≤ s.val .n) (cs : List Check) (v : Nat) :
    s.completeOne (checkModulus s :: cs) v = s.completeOne cs v :=
  completeOne_of_passes ((checkModulus_passes s).mpr h) s cs v

/-- The modulus check of MODINV fails with OUT_OF_RANGE/1 (R130). -/
theorem completeOne_not_modulus {s : State} (h : s.val .n < 2) (cs : List Check) (v : Nat) :
    s.completeOne (checkModulus s :: cs) v = failed s 3 1 :=
  completeOne_of_fails (decide_eq_true h) s cs v

/-- The gcd check of MODINV passes (R130). -/
theorem completeOne_coprime {s : State} (h : Nat.gcd (s.val .a) (s.val .n) = 1) (cs : List Check)
    (v : Nat) : s.completeOne (checkCoprime s :: cs) v = s.completeOne cs v :=
  completeOne_of_passes ((checkCoprime_passes s).mpr h) s cs v

/-- The gcd check of MODINV fails with NO_INVERSE/1 (R130). -/
theorem completeOne_not_coprime {s : State} (h : Nat.gcd (s.val .a) (s.val .n) ≠ 1) (cs : List Check)
    (v : Nat) : s.completeOne (checkCoprime s :: cs) v = failed s 1 1 :=
  completeOne_of_fails (decide_eq_true h) s cs v

/-! ### the value of MODINV -/

/-- The machine's inverse multiplies back to 1, as a remainder (R130). -/
theorem mul_invMod_mod {a n : Nat} (hn : 2 ≤ n) (hg : Nat.gcd a n = 1) : a * invMod a n % n = 1 :=
  Nat.mod_eq_of_modEq (invMod_spec a (by omega) hg) hn

/-- Settles O45: each clause is the outcome of the first check that fails, and with none the value is `invMod`. -/
theorem modinvInverse : Obligations.ModinvInverse := by
  intro k s
  rw [exec_modinv, modinvChecks]
  refine ⟨fun hn ha hg => ⟨_, invMod_lt _ (by omega), mul_invMod_mod hn hg, ?_⟩, fun hn => ?_,
    fun hn ha => ?_, fun hn ha hg => ?_⟩
  · rw [completeOne_modulus hn, completeOne_below ha, completeOne_coprime hg, completeOne_nil]
  · rw [completeOne_not_modulus hn]
  · rw [completeOne_modulus hn, completeOne_not_below ha, raise_aRange]
  · rw [completeOne_modulus hn, completeOne_below ha, completeOne_not_coprime hg]

/-! ### when MODINV succeeds -/

/-- A completion with one value succeeds exactly when every check passes (60_exceptions.md R204). -/
theorem completeOne_succeeds_iff {s : State} (herr : s.error = false) (cs : List Check) (v : Nat) :
    (s.completeOne cs v).error = false ↔ ∀ c ∈ cs, c.1 = false := by
  rw [← firstError_none_iff]
  rcases completeOne_cases s cs v with ⟨err, hfirst, h⟩ | ⟨hfirst, h⟩ <;> simp [h, hfirst, herr]

/-- A completion with one value that succeeds leaves in RES0 a value that fits (10_state.md R40). -/
theorem completeOne_res0 {s : State} {cs : List Check} {v : Nat} (hok : ∀ c ∈ cs, c.1 = false)
    (hv : v < 2 ^ Config.opw) : (s.completeOne cs v).val .res0 = v := by
  rw [State.completeOne, (firstError_none_iff cs).mpr hok]
  exact Nat.mod_eq_of_lt hv

/-- Settles O46: success is that the three checks pass; then RES0 is `invMod`, which is the only inverse below N. -/
theorem modinvSucceedsExactlyWhen : Obligations.ModinvSucceedsExactlyWhen := by
  intro k s t herr ht
  rw [exec_modinv, Host.Outcome.next.injEq] at ht
  subst ht
  rw [completeOne_succeeds_iff herr, modinvChecks_pass]
  refine ⟨Iff.rfl, fun hok => ?_⟩
  have ⟨hn, _, hg⟩ := hok
  have hpos : 0 < s.val .n := by omega
  have hlt := invMod_lt (s.val .a) hpos
  rw [completeOne_res0 ((modinvChecks_pass s).mpr hok) (hlt.trans (val_lt s .n))]
  refine ⟨mul_invMod_mod hn hg, hlt, fun b hb hab => invMod_unique _ b hpos hb ?_⟩
  rw [Nat.ModEq, hab, Nat.mod_eq_of_lt hn]

end Sys2Proof.Proofs
end

section
/-! PROOFS. The Miller–Rabin test unit: the verdict of MR_ROUND and the rounds of MR_TEST, each with its ordered
checks (43_miller_rabin.md R140 to R142). -/

namespace Sys2Proof.Proofs

open Sys2Proof Sys2Proof.Machine Sys2Proof.Claims

/-! ### the round predicate -/

/-- For an odd n, n − 1 is even: a power of two that leaves an odd factor is not 2^0 (R140). -/
theorem twoPower_pos {n k q : Nat} (hodd : n % 2 = 1) (hq : q % 2 = 1) (hkq : n - 1 = 2 ^ k * q) :
    0 < k := by
  refine Nat.pos_of_ne_zero fun h0 => ?_
  rw [h0, pow_zero, Nat.one_mul] at hkq
  omega

/-- The machine's round passes exactly as R140 says: any way to write N − 1 as 2^k·q with q odd serves, and
there is one. -/
theorem mrPass_iff_mrPasses {s : State} (hn : OddMod s 5) (a : Nat) :
    mrPass (s.val .n) a = true ↔ MrPasses (s.val .n) a := by
  obtain ⟨hodd, hleast⟩ := hn
  have hlt := val_lt s .n
  constructor
  · intro hpass
    obtain ⟨hkq, hq⟩ := splitTwos_spec Config.opw (s.val .n - 1) (by omega) (by omega)
    exact ⟨_, _, hkq, hq, (mrPass_iff hleast hlt hkq hq (twoPower_pos hodd hq hkq)).mp hpass⟩
  · rintro ⟨k, q, hkq, hq, hround⟩
    exact (mrPass_iff hleast hlt hkq hq (twoPower_pos hodd hq hkq)).mpr hround

/-- The machine's round proves N composite exactly when R140 does not let it pass. -/
theorem mrPass_eq_false_iff {s : State} (hn : OddMod s 5) (a : Nat) :
    mrPass (s.val .n) a = false ↔ ¬ MrPasses (s.val .n) a := by
  rw [← mrPass_iff_mrPasses hn, Bool.not_eq_true]

/-- The number a round's verdict is written as: 1 for PASS, 0 for COMPOSITE (R141). -/
theorem boolValue_mrPass {s : State} (hn : OddMod s 5) (a : Nat) :
    (MrPasses (s.val .n) a ∧ boolValue (mrPass (s.val .n) a) = 1) ∨
      (¬ MrPasses (s.val .n) a ∧ boolValue (mrPass (s.val .n) a) = 0) := by
  cases hround : mrPass (s.val .n) a with
  | true => exact .inl ⟨(mrPass_iff_mrPasses hn a).mp hround, rfl⟩
  | false => exact .inr ⟨(mrPass_eq_false_iff hn a).mp hround, rfl⟩

/-! ### MR_ROUND -/

/-- The witness check of MR_ROUND: A in [2, N − 2] (R141). -/
def checkWitness (s : State) : Check :=
  (!(decide (2 ≤ s.val .a) && decide (s.val .a ≤ s.val .n - 2)), .aRange)

/-- The witness check passes exactly for a legal witness (R141). -/
theorem checkWitness_passes (s : State) : (checkWitness s).1 = false ↔ LegalWitness s (s.val .a) := by
  simp [checkWitness]

/-- MR_ROUND checks N and the witness A and returns the round's verdict (R141). -/
theorem exec_mrRound (k : Nat) (s : State) :
    exec (.mrRound k) s = .next (s.completeOne [checkOddMod s 5, checkWitness s]
      (boolValue (mrPass (s.val .n) (s.val .a)))) := rfl

/-- The witness check passes (R141). -/
theorem completeOne_witness {s : State} (h : LegalWitness s (s.val .a)) (cs : List Check) (v : Nat) :
    s.completeOne (checkWitness s :: cs) v = s.completeOne cs v :=
  completeOne_of_passes ((checkWitness_passes s).mpr h) s cs v

/-- The witness check fails with OUT_OF_RANGE/2 (R141). -/
theorem completeOne_not_witness {s : State} (h : ¬ LegalWitness s (s.val .a)) (cs : List Check) (v : Nat) :
    s.completeOne (checkWitness s :: cs) v = failed s 3 2 := by
  rw [← checkWitness_passes, Bool.not_eq_false] at h
  exact completeOne_of_fails h s cs v

/-- Settles O47: each clause is the outcome of the first check that fails, and with none the value is the verdict
of the round. -/
theorem mrRoundVerdict : Obligations.MrRoundVerdict := by
  intro k s
  rw [exec_mrRound]
  refine ⟨fun hn ha => ⟨_, ?_, boolValue_mrPass hn _⟩, fun hn => ?_, fun hn ha => ?_⟩
  · rw [completeOne_oddMod hn, completeOne_witness ha, completeOne_nil]
  · rw [completeOne_not_oddMod hn]
  · rw [completeOne_oddMod hn, completeOne_not_witness ha]

/-! ### the checks of MR_TEST -/

/-- A check that passes leaves the error to the checks after it (60_exceptions.md R204). -/
theorem firstError_of_passes {c : Check} (h : c.1 = false) (cs : List Check) :
    firstError (c :: cs) = firstError cs := by
  rw [firstError_cons, h, if_neg Bool.false_ne_true]

/-- The first check that fails gives the error (60_exceptions.md R204). -/
theorem firstError_of_fails {c : Check} (h : c.1 = true) (cs : List Check) :
    firstError (c :: cs) = some c.2 := by
  rw [firstError_cons, h, if_pos rfl]

/-- The checks of MR_TEST in their order: N, then ROUNDS (R142). -/
def mrTestChecks (s : State) (k : Nat) : List Check :=
  [checkOddMod s 5, (decide (k = 0), .roundsZero)]

/-- MR_TEST raises the error of its first failing check (R142). -/
theorem exec_mrTest_error {k : Nat} {s : State} {err : CmdError}
    (h : firstError (mrTestChecks s k) = some err) : exec (.mrTest k) s = .next (s.raise err) := by
  rw [mrTestChecks] at h
  rw [exec, execMrTest_eq, h]

/-- MR_TEST on an odd N ≥ 5 with at least one round asked runs its rounds (R142). -/
theorem exec_mrTest_rounds {k : Nat} {s : State} (hn : OddMod s 5) (hk : 1 ≤ k) :
    exec (.mrTest k) s = .next (s.afterTest k) := by
  have hrounds : decide (k = 0) = false := decide_eq_false (by omega)
  rw [exec, execMrTest_eq, firstError_of_passes ((checkOddMod_passes s 5).mpr hn),
    firstError_of_passes hrounds, firstError_nil]

/-- MR_TEST on another N fails with OUT_OF_RANGE/1 (R142). -/
theorem exec_mrTest_not_oddMod {k : Nat} {s : State} (hn : ¬ OddMod s 5) :
    exec (.mrTest k) s = .next (failed s 3 1) := by
  rw [OddMod, ← checkOddMod_passes, Bool.not_eq_false] at hn
  exact exec_mrTest_error (firstError_of_fails hn _)

/-- MR_TEST with no round asked fails with OUT_OF_RANGE/11 (R142). -/
theorem exec_mrTest_zero {s : State} (hn : OddMod s 5) :
    exec (.mrTest 0) s = .next (failed s 3 11) :=
  exec_mrTest_error ((firstError_of_passes ((checkOddMod_passes s 5).mpr hn) _).trans
    (firstError_of_fails rfl _))

/-! ### the rounds of MR_TEST -/

/-- What the rounds of MR_TEST leave: RES0, ROUNDS_DONE and the randomness port (R142). -/
theorem afterTest_eq {k rounds : Nat} {s : State} {verdict : Bool} {port : RngPort}
    (h : mrRounds (s.val .n) k 0 s.rng = (verdict, rounds, port)) :
    s.afterTest k = { oneResult s (boolValue verdict) with
      roundsDone := BitVec.ofNat 8 rounds, rng := port } := by
  rw [State.afterTest, h]
  rfl

/-- Settles O49: past its checks MR_TEST leaves what its rounds leave, and `mrRounds_any` names the draws they
took. -/
theorem mrTestUnderEverySource : Obligations.MrTestUnderEverySource := by
  intro k s
  refine ⟨fun hn hk _ => ?_, exec_mrTest_not_oddMod, fun hn hk => hk ▸ exec_mrTest_zero hn⟩
  obtain ⟨ds, hcount, htaken, hle, hpos, hlegal, hinit, hverdict⟩ := mrRounds_any hn.2 k 0 s.rng
  rcases hrun : mrRounds (s.val .n) k 0 s.rng with ⟨verdict, rounds, port⟩
  simp only [hrun, mrPass_iff_mrPasses hn, mrPass_eq_false_iff hn, Nat.zero_add] at hcount htaken hinit hverdict
  refine ⟨ds, boolValue verdict, port, ?_, htaken, hpos hk, hle, hlegal, hinit, ?_⟩
  · rw [exec_mrTest_rounds hn hk, afterTest_eq hrun, hcount]
  · rcases hverdict with ⟨rfl, hall⟩ | ⟨rfl, hlast⟩
    · exact .inl ⟨rfl, hall⟩
    · exact .inr ⟨rfl, hlast⟩

end Sys2Proof.Proofs
end

section
/-! PROOFS. The elliptic-curve units: the tangent and chord formulas of the two cores, and the values of EC_CHECK,
EC_DBL, EC_ADD and EC_SMUL with their ordered checks (44_ecc.md R160 to R167). -/

namespace Sys2Proof.Proofs

open Sys2Proof Sys2Proof.Machine Sys2Proof.Claims

/-! ### the doubling core -/

/-- Doubling a point with y = 0 is refused (R162). -/
theorem dblCore_zeroY {n a : Nat} {p : Nat × Nat} (hy : p.2 = 0) :
    dblCore n a p = .error .doubleZeroY := by
  rw [dblCore, if_pos hy]

/-- Doubling is refused when 2y has no inverse (R162). -/
theorem dblCore_not_coprime {n a : Nat} {p : Nat × Nat} (hy : p.2 ≠ 0)
    (hg : Nat.gcd (2 * p.2 % n) n ≠ 1) : dblCore n a p = .error .noInverseSlope := by
  rw [dblCore, if_neg hy, if_pos hg]

/-- The doubling core answers the tangent formulas for an inverse b of 2y: `modInt` is the remainder the formulas
are written with (R162). -/
theorem dblCore_tangent {n a : Nat} {p : Nat × Nat} (hn : 2 ≤ n) (hy : p.2 ≠ 0)
    (hg : Nat.gcd (2 * p.2 % n) n = 1) :
    ∃ b, b < n ∧ 2 * p.2 * b % n = 1 ∧ dblCore n a p = .ok (tangent n a p.1 p.2 b) := by
  have hpos : 0 < n := by omega
  refine ⟨invMod (2 * p.2 % n) n, invMod_lt _ hpos, ?_, ?_⟩
  · rw [← Nat.mod_mul_mod]
    exact mul_invMod_mod hn hg
  · simp only [dblCore, if_neg hy, if_neg (not_not.mpr hg), modInt_cast _ hpos]
    rfl

/-! ### the addition core -/

/-- Adding opposite points is refused: the sum would be infinity (R163). -/
theorem addCore_opposite {n : Nat} {p q : Nat × Nat} (hx : p.1 = q.1) (hy : p.2 ≠ q.2) :
    addCore n p q = .error .addOpposite := by
  rw [addCore, if_pos hx, if_pos hy]

/-- Adding a point to itself is refused (R163). -/
theorem addCore_same {n : Nat} {p q : Nat × Nat} (hx : p.1 = q.1) (hy : p.2 = q.2) :
    addCore n p q = .error .addSame := by
  rw [addCore, if_pos hx, if_neg (not_not.mpr hy)]

/-- Adding is refused when xq − xp has no inverse (R163). -/
theorem addCore_not_coprime {n : Nat} {p q : Nat × Nat} (hn : 0 < n) (hx : p.1 ≠ q.1)
    (hg : Int.gcd ((q.1 : Int) - p.1) n ≠ 1) : addCore n p q = .error .noInverseSlope := by
  rw [← gcd_modInt _ hn] at hg
  rw [addCore, if_neg hx, if_pos hg]

/-- The addition core answers the chord formulas for an inverse b of xq − xp (R163). -/
theorem addCore_chord {n : Nat} {p q : Nat × Nat} (hn : 2 ≤ n) (hx : p.1 ≠ q.1)
    (hg : Int.gcd ((q.1 : Int) - p.1) n = 1) :
    ∃ b : Nat, b < n ∧ ((q.1 : Int) - p.1) * b % (n : Int) = 1 ∧
      addCore n p q = .ok (chord n p.1 p.2 q.1 q.2 b) := by
  have hpos : 0 < n := by omega
  rw [← gcd_modInt _ hpos] at hg
  refine ⟨invMod (modInt ((q.1 : Int) - p.1) n) n, invMod_lt _ hpos, ?_, ?_⟩
  · have hinv := congrArg (Nat.cast (R := Int)) (mul_invMod_mod hn hg)
    push_cast at hinv
    rwa [modInt_cast _ hpos, Int.mul_emod, Int.emod_emod, ← Int.mul_emod] at hinv
  · simp only [addCore, if_neg hx, if_neg (not_not.mpr hg), modInt_cast _ hpos]
    rfl

/-- Settles O52: each clause is one line of a core. -/
theorem pointCoresFollowFormulas : Obligations.PointCoresFollowFormulas := by
  intro n a p q hn _ _ _ _
  exact ⟨dblCore_zeroY, dblCore_not_coprime, dblCore_tangent hn, addCore_opposite, addCore_same,
    addCore_not_coprime (by omega), addCore_chord hn⟩

/-! ### the checks of the curve commands -/

/-- The modulus check, then the rest (R100). -/
theorem firstError_checkOddMod (s : State) (least : Nat) (cs : List Check) :
    firstError (checkOddMod s least :: cs) =
      if OddMod s least then firstError cs else some .modulusRange := by
  by_cases hn : OddMod s least
  · rw [if_pos hn, firstError_of_passes ((checkOddMod_passes s least).mpr hn)]
  · rw [if_neg hn]
    rw [OddMod, ← checkOddMod_passes, Bool.not_eq_false] at hn
    exact firstError_of_fails hn cs

/-- A check that an operand lies below N, then the rest (R100). -/
theorem firstError_checkBelow (s : State) (r : Reg) (err : CmdError) (cs : List Check) :
    firstError (checkBelow s r err :: cs) = if s.val .n ≤ s.val r then some err else firstError cs := by
  simp [checkBelow, firstError_cons]

/-- The check that P is on the curve, then the rest (R160, R161). -/
theorem firstError_checkP (s : State) (cs : List Check) :
    firstError (checkP s :: cs) =
      if CurveEq s (s.val .px) (s.val .py) then firstError cs else some .pOffCurve := by
  simp [checkP, firstError_cons, State.onCurve, onCurve, State.pointP]

/-- The check that Q is on the curve, then the rest (R160, R161). -/
theorem firstError_checkQ (s : State) (cs : List Check) :
    firstError (checkQ s :: cs) =
      if CurveEq s (s.val .qx) (s.val .qy) then firstError cs else some .qOffCurve := by
  simp [checkQ, firstError_cons, State.onCurve, onCurve, State.pointQ]

/-- The error of the first failing check among CA, CB, PX, then PY (60_exceptions.md R204). -/
def curveError (s : State) : CmdError :=
  if s.val .n ≤ s.val .ca then .caRange
  else if s.val .n ≤ s.val .cb then .cbRange
  else if s.val .n ≤ s.val .px then .pxRange
  else .pyRange

/-- It is reported as OUT_OF_RANGE with the detail of its place (60_exceptions.md R202). -/
theorem raise_curveError (s : State) : s.raise (curveError s) = failed s 3 (curveDetail s) := by
  unfold curveError curveDetail
  split_ifs <;> rfl

/-- The range checks of the curve and of P, then the rest (R160). -/
theorem firstError_curveChecks {s : State} (hn : OddMod s 3) (cs : List Check) :
    firstError (curveChecks s ++ cs) =
      if CurveRange s then firstError cs else some (curveError s) := by
  simp only [curveChecks, List.cons_append, List.nil_append, firstError_checkBelow]
  by_cases hr : CurveRange s
  · have ⟨_, hca, hcb, hpx, hpy⟩ := hr
    rw [if_pos hr, if_neg (Nat.not_le.mpr hca), if_neg (Nat.not_le.mpr hcb),
      if_neg (Nat.not_le.mpr hpx), if_neg (Nat.not_le.mpr hpy)]
  · rw [if_neg hr, curveError]
    split_ifs with hca hcb hpx hpy
    · rfl
    · rfl
    · rfl
    · rfl
    · exact absurd ⟨hn, Nat.not_le.mp hca, Nat.not_le.mp hcb, Nat.not_le.mp hpx, Nat.not_le.mp hpy⟩ hr

/-- Past the modulus and the range checks of the curve and of P, the checks after them decide (R160). -/
theorem firstError_of_curveRange {s : State} (hr : CurveRange s) (cs : List Check) :
    firstError (checkOddMod s 3 :: (curveChecks s ++ cs)) = firstError cs := by
  rw [firstError_checkOddMod, if_pos hr.1, firstError_curveChecks hr.1, if_pos hr]

/-- A command that runs these checks first and reports an error of theirs (R160): OUT_OF_RANGE/1, then that of the
first value not below N. -/
theorem exec_rangeErrors {i : Instr} {s : State} {cs : List Check}
    (hi : ∀ err, firstError (checkOddMod s 3 :: (curveChecks s ++ cs)) = some err →
      exec i s = .next (s.raise err)) :
    (¬ OddMod s 3 → exec i s = .next (failed s 3 1)) ∧
      (OddMod s 3 → ¬ CurveRange s → exec i s = .next (failed s 3 (curveDetail s))) := by
  refine ⟨fun hn => hi .modulusRange ?_, fun hn hr => ?_⟩
  · rw [firstError_checkOddMod, if_neg hn]
  · rw [← raise_curveError]
    exact hi _ (by rw [firstError_checkOddMod, if_pos hn, firstError_curveChecks hn, if_neg hr])

/-! ### completions by their first error -/

/-- With no failing check the value is returned (10_state.md R40). -/
theorem completeOne_pass {s : State} {cs : List Check} (h : firstError cs = none) (v : Nat) :
    s.completeOne cs v = oneResult s v := by
  rw [State.completeOne, h]
  rfl

/-- A failing check is reported, whatever the value (60_exceptions.md R204). -/
theorem completeOne_checkError {s : State} {cs : List Check} {err : CmdError}
    (h : firstError cs = some err) (v : Nat) : s.completeOne cs v = s.raise err := by
  rw [State.completeOne, h]

/-- A raised error leaves its two codes (60_exceptions.md R205). -/
theorem raise_eq_failed (s : State) (err : CmdError) :
    s.raise err = failed s err.code.toNat err.detail.toNat := by
  simp [State.raise, failed]

section pointCommand

variable {i : Instr} {s : State} {cs : List Check} {v : Except CmdError (Nat × Nat)}
  (hi : exec i s = .next (s.completePoint cs v))

include hi

/-- A failing check is reported, whatever the core answers (60_exceptions.md R204). -/
theorem exec_checkError {err : CmdError} (h : firstError cs = some err) :
    exec i s = .next (s.raise err) := by
  simp only [hi, State.completePoint, h]

/-- With no failing check the error of the core is reported (60_exceptions.md R204). -/
theorem exec_coreError {err : CmdError} (h : firstError cs = none) (hv : v = .error err) :
    exec i s = .next (s.raise err) := by
  simp only [hi, State.completePoint, h, hv]

/-- With no failing check the point of the core is returned (10_state.md R40). -/
theorem exec_corePoint {p : Nat × Nat} (h : firstError cs = none) (hv : v = .ok p) :
    exec i s = .next (pointResult s p.1 p.2) := by
  simp only [hi, State.completePoint, h, hv]
  rfl

end pointCommand

/-! ### EC_CHECK -/

/-- EC_CHECK runs the range checks and returns whether P is on the curve (R164). -/
theorem exec_ecCheck (k : Nat) (s : State) :
    exec (.ecCheck k) s = .next (s.completeOne (checkOddMod s 3 :: (curveChecks s ++ []))
      (boolValue (decide (CurveEq s (s.val .px) (s.val .py))))) := rfl

/-- EC_CHECK past its range checks returns the truth of the equation (R164). -/
theorem exec_ecCheck_inRange (k : Nat) {s : State} (hr : CurveRange s) :
    exec (.ecCheck k) s =
      .next (oneResult s (boolValue (decide (CurveEq s (s.val .px) (s.val .py))))) := by
  rw [exec_ecCheck, completeOne_pass (firstError_of_curveRange hr [])]

/-- Settles O51: past the range checks the value is the truth of the equation, and no check of P follows them. -/
theorem ecCheckMembership : Obligations.EcCheckMembership := by
  intro k s
  refine ⟨fun hr hp => ?_, fun hr hp => ?_, exec_rangeErrors (cs := []) fun err h => ?_⟩
  · rw [exec_ecCheck_inRange k hr, decide_eq_true hp, boolValue, if_pos rfl]
  · rw [exec_ecCheck_inRange k hr, decide_eq_false hp, boolValue, if_neg Bool.false_ne_true]
  · rw [exec_ecCheck, completeOne_checkError h]

/-! ### EC_DBL -/

/-- The checks of EC_DBL in their order: the ranges, then P on the curve (R165). -/
def dblChecks (s : State) : List Check := checkOddMod s 3 :: (curveChecks s ++ [checkP s])

/-- EC_DBL runs its checks and returns what the doubling core answers (R165). -/
theorem exec_ecDbl (k : Nat) (s : State) :
    exec (.ecDbl k) s =
      .next (s.completePoint (dblChecks s) (dblCore (s.val .n) (s.val .ca) s.pointP)) := rfl

/-- Past the ranges EC_DBL has one check left (R165). -/
theorem firstError_dblChecks {s : State} (hr : CurveRange s) :
    firstError (dblChecks s) =
      if CurveEq s (s.val .px) (s.val .py) then none else some .pOffCurve := by
  rw [dblChecks, firstError_of_curveRange hr, firstError_checkP, firstError_nil]

/-- Settles O53: each clause is the first check that fails or, past the checks, a line of the doubling core. -/
theorem ecDblTangent : Obligations.EcDblTangent := by
  intro k s
  have hi := exec_ecDbl k s
  have hpass (hr : CurveRange s) (hp : CurveEq s (s.val .px) (s.val .py)) :
      firstError (dblChecks s) = none := by
    rw [firstError_dblChecks hr, if_pos hp]
  obtain ⟨hmod, hrange⟩ := exec_rangeErrors fun _ => exec_checkError hi
  refine ⟨fun hr hp hy hg => ?tangent, hmod, hrange, fun hr hp => ?offCurve, fun hr hp hy => ?zeroY,
    fun hr hp hy hg => ?noInverse⟩
  case tangent =>
    have hn : 2 ≤ s.val .n := Nat.le_of_succ_le hr.1.2
    obtain ⟨b, hb, hinv, hcore⟩ := dblCore_tangent (a := s.val .ca) (p := s.pointP) hn hy hg
    exact ⟨b, hb, hinv, exec_corePoint hi (hpass hr hp) hcore⟩
  case offCurve =>
    exact exec_checkError (err := .pOffCurve) hi (by rw [firstError_dblChecks hr, if_neg hp])
  case zeroY => exact exec_coreError hi (hpass hr hp) (dblCore_zeroY hy)
  case noInverse => exact exec_coreError hi (hpass hr hp) (dblCore_not_coprime hy hg)

/-! ### EC_ADD -/

/-- The checks of EC_ADD after those of the ranges of the curve and P: Q below N, then P and Q on the curve
(R166). -/
def addPointChecks (s : State) : List Check :=
  [checkBelow s .qx .qxRange, checkBelow s .qy .qyRange, checkP s, checkQ s]

/-- The checks of EC_ADD in their order (R166). -/
def addChecks (s : State) : List Check := checkOddMod s 3 :: (curveChecks s ++ addPointChecks s)

/-- EC_ADD runs its checks and returns what the addition core answers (R166). -/
theorem exec_ecAdd (k : Nat) (s : State) :
    exec (.ecAdd k) s =
      .next (s.completePoint (addChecks s) (addCore (s.val .n) s.pointP s.pointQ)) := rfl

/-- Past the ranges of the curve and of P, the range of Q and the two points decide (R166). -/
theorem firstError_addChecks {s : State} (hr : CurveRange s) :
    firstError (addChecks s) =
      if s.val .n ≤ s.val .qx then some .qxRange
      else if s.val .n ≤ s.val .qy then some .qyRange
      else if CurveEq s (s.val .px) (s.val .py) then
        if CurveEq s (s.val .qx) (s.val .qy) then none else some .qOffCurve
      else some .pOffCurve := by
  rw [addChecks, firstError_of_curveRange hr, addPointChecks, firstError_checkBelow,
    firstError_checkBelow, firstError_checkP, firstError_checkQ, firstError_nil]

/-- With Q in range too, only the two points are left to check (R166). -/
theorem firstError_addChecks_inRange {s : State} (hr : CurveRange s) (hq : QRange s) :
    firstError (addChecks s) =
      if CurveEq s (s.val .px) (s.val .py) then
        if CurveEq s (s.val .qx) (s.val .qy) then none else some .qOffCurve
      else some .pOffCurve := by
  rw [firstError_addChecks hr, if_neg (Nat.not_le.mpr hq.1), if_neg (Nat.not_le.mpr hq.2)]

/-- Settles O54: each clause is the first check that fails or, past the checks, a line of the addition core. -/
theorem ecAddChord : Obligations.EcAddChord := by
  intro k s
  have hi := exec_ecAdd k s
  obtain ⟨hmod, hrange⟩ := exec_rangeErrors fun _ => exec_checkError hi
  refine ⟨fun hr hqr hp hq => ?core, hmod, hrange, fun hr hqx => ?qxRange,
    fun hr hqx hqy => ?qyRange, fun hr hqr hp => ?pOffCurve, fun hr hqr hp hq => ?qOffCurve⟩
  case core =>
    have hn : 2 ≤ s.val .n := Nat.le_of_succ_le hr.1.2
    have hpass : firstError (addChecks s) = none := by
      rw [firstError_addChecks_inRange hr hqr, if_pos hp, if_pos hq]
    refine ⟨fun hx hg => ?_, fun hx hy => ?_, fun hx hy => ?_, fun hx hg => ?_⟩
    · obtain ⟨b, hb, hinv, hcore⟩ := addCore_chord (p := s.pointP) (q := s.pointQ) hn hx hg
      exact ⟨b, hb, hinv, exec_corePoint hi hpass hcore⟩
    · exact exec_coreError hi hpass (addCore_opposite hx hy)
    · exact exec_coreError hi hpass (addCore_same hx hy)
    · exact exec_coreError hi hpass (addCore_not_coprime (by omega) hx hg)
  case qxRange =>
    exact exec_checkError (err := .qxRange) hi (by rw [firstError_addChecks hr, if_pos hqx])
  case qyRange =>
    exact exec_checkError (err := .qyRange) hi
      (by rw [firstError_addChecks hr, if_neg (Nat.not_le.mpr hqx), if_pos hqy])
  case pOffCurve =>
    exact exec_checkError (err := .pOffCurve) hi
      (by rw [firstError_addChecks_inRange hr hqr, if_neg hp])
  case qOffCurve =>
    exact exec_checkError (err := .qOffCurve) hi
      (by rw [firstError_addChecks_inRange hr hqr, if_pos hp, if_neg hq])

/-! ### EC_SMUL -/

/-- The check that E is at least 2 (R167). -/
def checkScalar (s : State) : Check := (decide (s.val .e < 2), .eRange)

/-- The check of E, then the rest (R167). -/
theorem firstError_checkScalar (s : State) (cs : List Check) :
    firstError (checkScalar s :: cs) = if s.val .e < 2 then some .eRange else firstError cs := by
  simp only [checkScalar, firstError_cons, decide_eq_true_eq]

/-- The checks of EC_SMUL in their order: N, E, the other ranges, then P on the curve (R167). -/
def smulChecks (s : State) : List Check :=
  checkOddMod s 3 :: checkScalar s :: (curveChecks s ++ [checkP s])

/-- The machine's loop is the schedule of the rule (R167). -/
theorem smulCore_eq_doubleAndAdd (n a e : Nat) (p : Nat × Nat) :
    smulCore n a e p = doubleAndAdd n a e p :=
  smulLoop_eq_fold n a e p _ p

/-- EC_SMUL runs its checks and returns what double-and-add answers (R167). -/
theorem exec_ecSmul (k : Nat) (s : State) :
    exec (.ecSmul k) s = .next (s.completePoint (smulChecks s)
      (doubleAndAdd (s.val .n) (s.val .ca) (s.val .e) s.pointP)) := by
  rw [← smulCore_eq_doubleAndAdd]
  rfl

/-- Past the checks of N and E, the other ranges and P decide (R167). -/
theorem firstError_smulChecks {s : State} (hn : OddMod s 3) (he : 2 ≤ s.val .e) :
    firstError (smulChecks s) =
      if CurveRange s then
        if CurveEq s (s.val .px) (s.val .py) then none else some .pOffCurve
      else some (curveError s) := by
  rw [smulChecks, firstError_checkOddMod, if_pos hn, firstError_checkScalar,
    if_neg (Nat.not_lt.mpr he), firstError_curveChecks hn, firstError_checkP, firstError_nil]

/-- Settles O55: each clause is the first check that fails or, past the checks, what double-and-add answers. -/
theorem ecSmulDoubleAndAdd : Obligations.EcSmulDoubleAndAdd := by
  intro k s
  have hi := exec_ecSmul k s
  have hpass (hr : CurveRange s) (he : 2 ≤ s.val .e) (hp : CurveEq s (s.val .px) (s.val .py)) :
      firstError (smulChecks s) = none := by
    rw [firstError_smulChecks hr.1 he, if_pos hr, if_pos hp]
  refine ⟨fun p hr he hp hcore => ?point, fun err hr he hp hcore => ?coreError, fun hn => ?modulusRange,
    fun hn he => ?eRange, fun hn he hr => ?curveRange, fun hr he hp => ?pOffCurve⟩
  case point => exact exec_corePoint hi (hpass hr he hp) hcore
  case coreError =>
    rw [← raise_eq_failed]
    exact exec_coreError hi (hpass hr he hp) hcore
  case modulusRange =>
    exact exec_checkError (err := .modulusRange) hi
      (by rw [smulChecks, firstError_checkOddMod, if_neg hn])
  case eRange =>
    exact exec_checkError (err := .eRange) hi
      (by rw [smulChecks, firstError_checkOddMod, if_pos hn, firstError_checkScalar, if_pos he])
  case curveRange =>
    rw [← raise_curveError]
    exact exec_checkError hi (by rw [firstError_smulChecks hn he, if_neg hr])
  case pOffCurve =>
    exact exec_checkError (err := .pOffCurve) hi
      (by rw [firstError_smulChecks hr.1 he, if_pos hr, if_neg hp])

end Sys2Proof.Proofs
end

section
/-! PROOFS. What a completion writes, and the interrupt output (60_exceptions.md R205, R208). -/

namespace Sys2Proof.Proofs

open Sys2Proof Sys2Proof.Machine Sys2Proof.Claims

/-! ### what a completion writes -/

/-- t is s after a completion of i without an error: its results, ROUNDS_DONE and the draws for MR_TEST only,
DONE and BUSY are all that is written (R205). -/
def WritesResultsOnly (i : Instr) (s t : State) : Prop :=
  t = { s with regs := t.regs, roundsDone := t.roundsDone, rng := t.rng, done := true, busy := false } ∧
    (∀ r, r ∉ writesOf i → t.reg r = s.reg r) ∧
    ((∀ k, i ≠ .mrTest k) → t.roundsDone = s.roundsDone ∧ t.rng = s.rng)

/-- A command that returns one value writes RES0. -/
theorem returnOne_writesResultsOnly {i : Instr} (hw : writesOf i = [.res0]) (s : State) (v : Nat) :
    WritesResultsOnly i s (s.returnOne v) := by
  refine ⟨rfl, fun r hr => ?_, fun _ => ⟨rfl, rfl⟩⟩
  have hne : r ≠ .res0 := by simpa [hw] using hr
  rw [returnOne_reg, if_neg hne]

/-- A command that returns a point writes RES0 and RES1. -/
theorem returnPoint_writesResultsOnly {i : Instr} (hw : writesOf i = [.res0, .res1]) (s : State)
    (p : Nat × Nat) : WritesResultsOnly i s (s.returnPoint p) := by
  refine ⟨rfl, fun r hr => ?_, fun _ => ⟨rfl, rfl⟩⟩
  obtain ⟨h0, h1⟩ : r ≠ .res0 ∧ r ≠ .res1 := by simpa [hw] using hr
  rw [returnPoint_reg, if_neg h1, if_neg h0]

/-- MR_TEST writes RES0, and with it its count and its draws. -/
theorem afterTest_writesResultsOnly (k : Nat) (s : State) :
    WritesResultsOnly (.mrTest k) s (s.afterTest k) := by
  refine ⟨rfl, fun r hr => ?_, fun htest => absurd rfl (htest k)⟩
  have hne : r ≠ .res0 := by simpa [writesOf] using hr
  exact OperandFile.get_set_ne s.regs _ hne

/-- A command raises an error or writes its results, and then ERROR is as before (R205). -/
theorem exec_raises_or_writes {i : Instr} {s t : State} (h : exec i s = .next t) :
    (∃ err, t = s.raise err) ∨ (t.error = s.error ∧ WritesResultsOnly i s t) := by
  rcases exec_cases i s with ⟨err, -, u⟩ | ⟨v, hw, -, u⟩ | ⟨p, hw, -, u⟩ | ⟨k, rfl, -, u⟩ <;>
    cases u.symm.trans h
  · exact .inl ⟨err, rfl⟩
  · exact .inr ⟨rfl, returnOne_writesResultsOnly hw s v⟩
  · exact .inr ⟨rfl, returnPoint_writesResultsOnly hw s p⟩
  · exact .inr ⟨rfl, afterTest_writesResultsOnly k s⟩

/-- A completion of the unit that turns ERROR on raises an error, of its command or of an illegal word
(R205). -/
theorem unitStep_raises {s t : State} (hbusy : s.busy = true) (herr : s.error = false)
    (h : unitStep s = .next t) (ht : t.error = true) : ∃ err, t = s.raise err := by
  cases hd : decode s.cmd with
  | error why => exact ⟨illegalError why, Host.Outcome.next.inj (h.symm.trans (unitStep_illegal hbusy hd))⟩
  | ok i =>
    rcases exec_raises_or_writes ((unitStep_decoded hbusy hd).symm.trans h) with hraise | ⟨hkept, -⟩
    · exact hraise
    · cases ht.symm.trans (hkept.trans herr)

/-- Settles O11: an error is `State.raise`, which writes STATUS bits only, and a success is
`WritesResultsOnly`. -/
theorem errorsArePrecise : Obligations.ErrorsArePrecise := by
  refine ⟨fun s t hbusy herr h ht => ?_, fun i s t h herr => ?_⟩
  · obtain ⟨err, rfl⟩ := unitStep_raises hbusy herr h ht
    rfl
  · rcases exec_raises_or_writes h with ⟨err, rfl⟩ | ⟨hkept, hwrites⟩
    · exact ⟨fun _ => rfl, fun hok => Bool.noConfusion hok⟩
    · exact ⟨fun ht => (by cases ht.symm.trans (hkept.trans herr)), fun _ => hwrites⟩

/-! ### the interrupt output -/

/-- The output is the disjunction of the enabled causes (R208). -/
theorem irq_eq_true_iff (s : State) :
    irq s = true ↔ (s.done = true ∧ s.doneIe = true) ∨ (s.error = true ∧ s.errIe = true) ∨
      (s.overrun = true ∧ s.ovrIe = true) := by
  simp only [irq, Bool.or_eq_true, Bool.and_eq_true, or_assoc]

/-- Every completion, with an error or without, sets DONE and leaves DONE_IE (10_state.md R40, R205). -/
theorem unitStep_done {s t : State} (hbusy : s.busy = true) (h : unitStep s = .next t) :
    t.done = true ∧ t.doneIe = s.doneIe := by
  rcases unitStep_cases s with ⟨hidle, -⟩ | ⟨-, _, u⟩ | ⟨-, _, u⟩ | ⟨-, _, u⟩ | ⟨-, _, -, -, u⟩
  · cases hbusy.symm.trans hidle
  all_goals
    cases u.symm.trans h
    exact ⟨rfl, rfl⟩

/-- With the three causes cleared the output is off. -/
theorem irq_clearStatus (s : State) : irq (clearStatus 0xE#32 s) = false := by
  simp [irq]

/-- With the three enables cleared the output is off. -/
theorem irq_setIrqEn_zero (s : State) : irq (setIrqEn 0#32 s) = false := by
  simp [irq]

/-- Settles O33: DONE alone raises the output where DONE_IE is set, and the two writes are `clearStatus` and
`setIrqEn`. -/
theorem irqFollowsEnabledCauses : Obligations.IrqFollowsEnabledCauses := by
  refine ⟨rfl, irq_eq_true_iff, fun s t hbusy hie h => ?_,
    fun s => ⟨irq_clearStatus s, irq_setIrqEn_zero s⟩⟩
  obtain ⟨hdone, hkept⟩ := unitStep_done hbusy h
  exact (irq_eq_true_iff t).mpr (.inl ⟨hdone, hkept.trans hie⟩)

/-- A running unit with DONE_IE = 1 and ERR_IE = 0 raises the output by a completion that fails: the word 0 is
illegal. -/
theorem witness_failedCompletionRaisesIrq :
    ∃ t, unitStep { State.reset.start 0#32 with doneIe := true } = .next t ∧
      t.error = true ∧ t.errIe = false ∧ irq t = true := by
  obtain ⟨-, -, hcompletion, -⟩ := irqFollowsEnabledCauses
  have hrun : unitStep { State.reset.start 0#32 with doneIe := true } = .next _ :=
    unitStep_illegal (why := .undefinedOpcode) rfl rfl
  exact ⟨_, hrun, rfl, rfl, hcompletion _ _ rfl rfl hrun⟩

end Sys2Proof.Proofs
end

section
/-! PROOFS. Encoding and decoding are inverse to each other (30_encoding.md R80, R83, R85). -/

namespace Sys2Proof.Proofs

open Sys2Proof Sys2Proof.Machine Sys2Proof.Claims

/-! ### the opcode map both ways -/

/-- The opcode map gives a command back from its OPCODE and its ROUNDS (30_encoding.md R85). -/
theorem commandOf_opcode (i : Instr) : commandOf i.opcode i.rounds = some i := by
  cases i <;> rfl

/-- Every OPCODE of the map fits its byte (30_encoding.md R80). -/
theorem opcode_lt (i : Instr) : i.opcode < 256 := by
  cases i <;> simp [Instr.opcode]

/-- The fields of a well-formed command's word (30_encoding.md R80). -/
theorem fields_encode {i : Instr} (h : i.WellFormed) :
    opcodeField (encode i) = i.opcode ∧ roundsField (encode i) = i.rounds ∧
      reservedField (encode i) = 0 :=
  Laws.EncodedFields.of_bounds i (opcode_lt i) h

/-- Settles O2: the three fields of the word are the command's, and the opcode map gives the command back. -/
theorem decodeOfEncode : Obligations.DecodeOfEncode := by
  intro i h
  obtain ⟨hopcode, hrounds, hreserved⟩ := fields_encode h
  rw [decode, hopcode, hrounds, commandOf_opcode]
  exact if_pos hreserved

/-- OPCODE, ROUNDS and RSV are all the bits of a word (30_encoding.md R80). -/
theorem word_eq_of_fields {w w' : Word} (hopcode : opcodeField w = opcodeField w')
    (hrounds : roundsField w = roundsField w') (hreserved : reservedField w = reservedField w') :
    w = w' := by
  simp only [opcodeField_eq, roundsField_eq, reservedField_eq] at hopcode hrounds hreserved
  exact BitVec.eq_of_toNat_eq (by omega)

/-- A command that is decoded is well formed: its ROUNDS is a byte (30_encoding.md R82). -/
theorem decode_wellFormed {w : Word} {i : Instr} (h : decode w = .ok i) : i.WellFormed := by
  obtain ⟨-, hrounds, -⟩ := Laws.decode_ok h
  rw [roundsField_eq] at hrounds
  exact decide_eq_true (show i.rounds ≤ 255 by omega)

/-- Settles O3: the word and the word of its command agree in the three fields. -/
theorem encodeOfDecode : Obligations.EncodeOfDecode := by
  intro w i h
  have hwf := decode_wellFormed h
  obtain ⟨hopcode, hrounds, hreserved⟩ := Laws.decode_ok h
  obtain ⟨hopcode', hrounds', hreserved'⟩ := fields_encode hwf
  exact ⟨hwf, word_eq_of_fields (hopcode'.trans hopcode) (hrounds'.trans hrounds)
    (hreserved'.trans hreserved.symm)⟩

/-- Settles O1: nine words, decoded by computation. -/
theorem sampleWordsDecode : Obligations.SampleWordsDecode := by
  unfold Obligations.SampleWordsDecode
  decide

end Sys2Proof.Proofs
end

section
/-! PROOFS. The relations between STATUS, CMD and ROUNDS_DONE hold at reset and every step keeps them
(10_state.md section 3, 60_exceptions.md section 1). -/

namespace Sys2Proof.Proofs

open Sys2Proof Sys2Proof.Machine Sys2Proof.Claims

/-! ### where the errors are cleared, and where they are kept -/

/-- The invariant where no error is reported (10_state.md R33). -/
theorem statusInv_of_noError {t : State} (herror : t.error = false) (hcode : t.errCode = 0)
    (hdetail : t.errDetail = 0) (hbusy : t.busy = true → t.done = false ∧ t.roundsDone = 0)
    (hle : t.roundsDone.toNat ≤ roundsField t.cmd)
    (htest : t.roundsDone ≠ 0 → opcodeField t.cmd = 0x11) : StatusInv t where
  busy_clear h := ⟨(hbusy h).1, herror, (hbusy h).2⟩
  error_code := by simp [herror, hcode]
  no_detail _ := hdetail
  error_row h := by cases h.symm.trans herror
  rounds_le := hle
  rounds_test := htest
  failed_rounds h := by cases h.symm.trans herror

/-- A move that leaves the error fields alone keeps their relations. -/
theorem statusInv_of_errors_kept {s t : State} (hs : StatusInv s) (herror : t.error = s.error)
    (hcode : t.errCode = s.errCode) (hdetail : t.errDetail = s.errDetail)
    (hbusy : t.busy = true → t.done = false ∧ t.error = false ∧ t.roundsDone = 0)
    (hle : t.roundsDone.toNat ≤ roundsField t.cmd)
    (htest : t.roundsDone ≠ 0 → opcodeField t.cmd = 0x11)
    (hfailed : t.error = true → t.roundsDone = 0) : StatusInv t where
  busy_clear := hbusy
  error_code := by rw [herror, hcode]; exact hs.error_code
  no_detail := by rw [herror, hdetail]; exact hs.no_detail
  error_row := by rw [herror, hcode, hdetail]; exact hs.error_row
  rounds_le := hle
  rounds_test := htest
  failed_rounds := hfailed

/-- The fields the invariant speaks of. -/
def statusView (s : State) : Word × Bool × Bool × Bool × BitVec 4 × BitVec 4 × BitVec 8 :=
  (s.cmd, s.busy, s.done, s.error, s.errCode, s.errDetail, s.roundsDone)

/-- A move that leaves these fields alone keeps the invariant. -/
theorem statusInv_of_view {s t : State} (hs : StatusInv s) (hview : statusView t = statusView s) :
    StatusInv t := by
  simp only [statusView, Prod.mk.injEq] at hview
  obtain ⟨hcmd, hbusy, hdone, herror, hcode, hdetail, hrounds⟩ := hview
  apply statusInv_of_errors_kept hs herror hcode hdetail
  · rw [hbusy, hdone, herror, hrounds]; exact hs.busy_clear
  · rw [hrounds, hcmd]; exact hs.rounds_le
  · rw [hrounds, hcmd]; exact hs.rounds_test
  · rw [herror, hrounds]; exact hs.failed_rounds

/-! ### starts and resets -/

/-- The invariant holds where no outcome is reported: after a reset and after a start (10_state.md R29, R41). -/
theorem statusInv_cleared {s : State} (hdone : s.done = false) (herror : s.error = false)
    (hcode : s.errCode = 0) (hdetail : s.errDetail = 0) (hrounds : s.roundsDone = 0) : StatusInv s :=
  statusInv_of_noError herror hcode hdetail (fun _ => ⟨hdone, hrounds⟩)
    (hrounds ▸ Nat.zero_le _) (fun h => absurd hrounds h)

/-- Settles O35: a reset reports no outcome. -/
theorem statusInvariantAtReset : Obligations.StatusInvariantAtReset :=
  statusInv_cleared rfl rfl rfl rfl rfl

/-! ### completions -/

/-- No error has the code 0 (60_exceptions.md R201). -/
theorem code_ne_zero (err : CmdError) : err.code ≠ 0 := by
  cases err <;> decide

/-- A completion with an error keeps the invariant: while running ROUNDS_DONE is 0 (60_exceptions.md R205). -/
theorem statusInv_raise {s : State} (hs : StatusInv s) (hbusy : s.busy = true) (err : CmdError) :
    StatusInv (s.raise err) where
  busy_clear h := by cases h
  error_code := ⟨fun _ => code_ne_zero err, fun _ => rfl⟩
  no_detail h := by cases h
  error_row _ := ⟨err, rfl, rfl⟩
  rounds_le := hs.rounds_le
  rounds_test := hs.rounds_test
  failed_rounds _ := (hs.busy_clear hbusy).2.2

/-- A completion without an error leaves the error fields as the start cleared them, so what is left to show is
what R37 and R142 say of ROUNDS_DONE. -/
theorem statusInv_success {s t : State} (hs : StatusInv s) (hbusy : s.busy = true)
    (hidle : t.busy = false) (herror : t.error = s.error) (hcode : t.errCode = s.errCode)
    (hdetail : t.errDetail = s.errDetail) (hle : t.roundsDone.toNat ≤ roundsField t.cmd)
    (htest : t.roundsDone ≠ 0 → opcodeField t.cmd = 0x11) : StatusInv t := by
  obtain ⟨-, hclear, -⟩ := hs.busy_clear hbusy
  exact statusInv_of_errors_kept hs herror hcode hdetail (fun h => by cases h.symm.trans hidle) hle htest
    fun h => by cases h.symm.trans (herror.trans hclear)

/-- MR_TEST counts no more rounds than its ROUNDS asks (43_miller_rabin.md R142). -/
theorem afterTest_roundsDone_le (s : State) (k : Nat) : (s.afterTest k).roundsDone.toNat ≤ k := by
  obtain ⟨-, hle, -, -⟩ := mrRounds_bounds (s.val .n) k 0 s.rng
  calc (s.afterTest k).roundsDone.toNat
    _ = (mrRounds (s.val .n) k 0 s.rng).2.1 % 2 ^ 8 := rfl
    _ ≤ (mrRounds (s.val .n) k 0 s.rng).2.1 := Nat.mod_le _ _
    _ ≤ k := hle.trans_eq (Nat.zero_add k)

/-- The unit's move keeps the invariant (10_state.md R40). -/
theorem statusInv_unitStep {s t : State} (hs : StatusInv s) (h : unitStep s = .next t) :
    StatusInv t := by
  rcases unitStep_cases s with ⟨-, u⟩ | ⟨hbusy, err, u⟩ | ⟨hbusy, v, u⟩ | ⟨hbusy, p, u⟩ |
    ⟨hbusy, k, -, hd, u⟩ <;> cases u.symm.trans h
  · exact hs
  · exact statusInv_raise hs hbusy err
  · exact statusInv_success hs hbusy rfl rfl rfl rfl hs.rounds_le hs.rounds_test
  · exact statusInv_success hs hbusy rfl rfl rfl rfl hs.rounds_le hs.rounds_test
  · obtain ⟨hopcode, hrounds, -⟩ := Laws.decode_ok hd
    exact statusInv_success hs hbusy rfl rfl rfl rfl
      ((afterTest_roundsDone_le s k).trans_eq hrounds) fun _ => hopcode.symm

/-! ### host accesses -/

/-- A STATUS write clears ERROR with its codes or leaves all three, and it sets nothing (10_state.md R33, R35). -/
theorem statusInv_clearStatus {s : State} (hs : StatusInv s) (w : Word) :
    StatusInv (clearStatus w s) := by
  have hbusy (h : s.busy = true) : (clearStatus w s).done = false ∧
      (clearStatus w s).error = false ∧ (clearStatus w s).roundsDone = 0 := by
    obtain ⟨hdone, herror, hrounds⟩ := hs.busy_clear h
    simp [hdone, herror, hrounds]
  cases hbit : w.getLsbD 2 with
  | true =>
    refine statusInv_of_noError ?_ ?_ ?_ (fun h => ⟨(hbusy h).1, (hbusy h).2.2⟩) hs.rounds_le hs.rounds_test
    · rw [clearStatus_error, hbit, Bool.not_true, Bool.and_false]
    · rw [clearStatus_errCode, hbit, if_pos rfl]
    · rw [clearStatus_errDetail, hbit, if_pos rfl]
  | false =>
    have herror : (clearStatus w s).error = s.error := by
      rw [clearStatus_error, hbit, Bool.not_false, Bool.and_true]
    refine statusInv_of_errors_kept hs herror ?_ ?_ hbusy hs.rounds_le hs.rounds_test
      fun h => hs.failed_rounds (herror.symm.trans h)
    · rw [clearStatus_errCode, hbit, if_neg Bool.false_ne_true]
    · rw [clearStatus_errDetail, hbit, if_neg Bool.false_ne_true]

/-- A legal write keeps the invariant (20_memory.md R67). -/
theorem statusInv_writeReg {s : State} (hs : StatusInv s) (v : Word) (at_ : WindowReg) :
    StatusInv (writeReg v s at_) := by
  rcases writeReg_cases v s at_ with h | ⟨-, -, h⟩ | ⟨-, -, h⟩ | ⟨-, h⟩ | ⟨-, h⟩ | ⟨-, -, h⟩ |
    ⟨r, j, -, -, -, h⟩ <;> rw [h]
  · exact hs
  · exact statusInv_cleared rfl rfl rfl rfl rfl
  · exact statusInv_of_view hs rfl
  · exact statusInv_clearStatus hs v
  · exact statusInv_of_view hs rfl
  · exact statusInv_cleared rfl rfl rfl rfl rfl
  · exact statusInv_of_view hs rfl

/-! ### every step -/

/-- Every move keeps the invariant. -/
theorem statusInv_stepEvent {ev : Event} {s t : State} (hs : StatusInv s)
    (h : stepEvent ev s = .next t) : StatusInv t := by
  rcases stepEvent_cases ev s with ⟨-, u⟩ | ⟨_, _, _, -, u⟩ | ⟨_, _, _, -, -, u⟩ |
    ⟨off, _, data, -, -, u⟩ | ⟨-, u⟩
  · exact statusInv_unitStep hs (u.symm.trans h)
  all_goals cases u.symm.trans h
  · exact statusInv_of_view hs rfl
  · exact statusInv_of_view hs rfl
  · exact statusInv_of_view (statusInv_writeReg hs data (locate off.toNat)) rfl
  · exact statusInv_cleared rfl rfl rfl rfl rfl

/-- Settles O34: a step is a move of the list or the unit's, and the list is none of the fields the invariant
reads. -/
theorem statusInvariantKept : Obligations.StatusInvariantKept := by
  intro s t hs h
  cases hevents : s.events with
  | nil => exact statusInv_unitStep hs ((step_nil hevents).symm.trans h)
  | cons ev rest =>
    exact statusInv_stepEvent (s := { s with events := rest }) (statusInv_of_view hs rfl)
      ((step_cons hevents).symm.trans h)

end Sys2Proof.Proofs
end

section
/-! PROOFS. The step, and that every run of it goes on: no step stops the machine and every started command
completes (10_state.md R40, 60_exceptions.md section 1, 70_reset_and_hazards.md section 3). -/

namespace Sys2Proof.Proofs

open Sys2Proof Sys2Proof.Machine Sys2Proof.Claims

/-- Settles O6: the step is the head of the list, and the unit's move is the decoded command. -/
theorem stepRunsDecodedCommand : Obligations.StepRunsDecodedCommand := by
  refine ⟨fun _ _ _ hevents => step_cons hevents,
    fun s i hbusy hd => ⟨fun rest hevents => ?_, fun hevents => ?_⟩⟩
  · exact (step_cons hevents).trans (unitStep_decoded (s := { s with events := rest }) hbusy hd)
  · exact (step_nil hevents).trans (unitStep_decoded hbusy hd)

/-- Settles O7: the write starts the unit on a word that decodes to the command. -/
theorem startedCommandRuns : Obligations.StartedCommandRuns := by
  intro s i hidle hwf
  rw [runEvents_cmd_unit hidle, unitStep_decoded rfl (decodeOfEncode i hwf), State.start]

/-- Settles O8, by induction on the length of the run. -/
theorem noStepStops : Obligations.NoStepStops := by
  refine ⟨step_next, fun k => ?_⟩
  induction k with
  | zero => exact fun _ => trivial
  | succ k ih =>
    intro s
    obtain ⟨s', hstep⟩ := step_next s
    exact ⟨s', hstep, ih s'⟩

/-- A run of the machine takes its first step and goes on. -/
theorem run_succ {s s' : State} (h : step s = .next s') (k : Nat) :
    Host.Core.run core (k + 1) s = Host.Core.run core k s' := by
  have hcore : core.step s = .next s' := h
  simp only [Host.Core.run, hcore]

/-- The step after the last listed move is the unit's, which leaves it idle: by induction on the list. -/
theorem run_until_idle (l : List Event) : ∀ s : State, s.events = l → ∃ t : State,
    Host.Core.run core (l.length + 1) s = .next t ∧ t.busy = false ∧ t.events = [] := by
  induction l with
  | nil =>
    intro s hevents
    obtain ⟨t, hstep⟩ := step_next s
    have hunit : unitStep s = .next t := (step_nil hevents).symm.trans hstep
    exact ⟨t, run_succ hstep 0, (unitStep_busy_overrun hunit).1,
      (stepEvent_events (ev := .unit) hunit).trans hevents⟩
  | cons ev rest ih =>
    intro s hevents
    obtain ⟨s', hstep⟩ := step_next s
    obtain ⟨t, hrun, hdone⟩ := ih s' (stepEvent_events ((step_cons hevents).symm.trans hstep))
    exact ⟨t, (run_succ hstep _).trans hrun, hdone⟩

/-- Settles O9: the list is the one of the state. -/
theorem startedCommandCompletes : Obligations.StartedCommandCompletes :=
  fun s => run_until_idle s.events s rfl

end Sys2Proof.Proofs
end

section
/-! PROOFS. What every completion leaves alone, register by register and byte by byte, and the table of errors by
opcode (10_state.md section 1, 60_exceptions.md R203). -/

namespace Sys2Proof.Proofs

open Sys2Proof Sys2Proof.Machine Sys2Proof.Claims

/-! ### the frame of a completion -/

/-- Settles O10: a completion raises an error, which writes STATUS bits only, or is `WritesResultsOnly`. -/
theorem everyCommandCompletes : Obligations.EveryCommandCompletes := by
  intro i s
  obtain ⟨t, h⟩ := exec_next i s
  refine ⟨t, h, ?_⟩
  rcases exec_raises_or_writes h with ⟨err, rfl⟩ | ⟨-, hframe, hregs, htest⟩
  · exact ⟨rfl, rfl, rfl, rfl, rfl, rfl, rfl, rfl, rfl, fun _ _ => rfl, fun _ => ⟨rfl, rfl⟩⟩
  · refine ⟨?_, ?_, ?_, ?_, ?_, ?_, ?_, ?_, ?_, hregs, htest⟩ <;> rw [hframe]

/-- No command writes a register but RES0 and RES1 (10_state.md R23). -/
theorem index_of_mem_writesOf {i : Instr} {r : Reg} (h : r ∈ writesOf i) : 10 ≤ r.index := by
  have hall : ∀ r ∈ writesOf i, 10 ≤ r.index := by
    cases i <;> simp [writesOf, Reg.index]
  exact hall r h

/-- The last register of the file is RES1 (10_state.md R21). -/
theorem eq_res1_of_index {r : Reg} (h : 11 ≤ r.index) : r = .res1 := by
  cases r with
  | res1 => rfl
  | _ => exact absurd h (by decide)

/-- ROUNDS_DONE stands at one offset only (10_state.md R25). -/
theorem locate_roundsDone {off : Nat} (h : locate off = .roundsDone) : off = 0x01C := by
  unfold locate at h
  split at h
  · split at h <;> cases h
  · split at h
    case h_7 => rfl
    all_goals cases h

/-- A completion leaves every word of the window alone but STATUS, ROUNDS_DONE and the registers it writes. -/
theorem readReg_of_exec {i : Instr} {s t : State} (h : exec i s = .next t) {at_ : WindowReg}
    (hstatus : at_ ≠ .status) (hrounds : at_ ≠ .roundsDone)
    (hwrites : ∀ r j, at_ = .operand r j → r ∉ writesOf i) : readReg t at_ = readReg s at_ := by
  obtain ⟨t', h', -, -, hcmd, -, hdoneIe, herrIe, hovrIe, -, -, hregs, -⟩ := everyCommandCompletes i s
  cases h'.symm.trans h
  cases at_ with
  | status => exact absurd rfl hstatus
  | roundsDone => exact absurd rfl hrounds
  | cmd => exact hcmd
  | irqEn => simp only [readReg, irqEnWord, hdoneIe, herrIe, hovrIe]
  | operand r j => simp only [readReg, hregs r (hwrites r j rfl)]
  | id | version | config | ctrl | reserved => rfl

/-- Settles O14: the bytes spoken of lie in no register the command writes. -/
theorem completionFrameByBytes : Obligations.CompletionFrameByBytes := by
  intro i s t off h hstatus hrounds hrange
  refine congrArg (byteLane · _) (readReg_of_exec h (mt locate_status hstatus)
    (mt locate_roundsDone hrounds) fun r j hat hr => ?_)
  obtain ⟨hj, hlo, hhi⟩ := locate_operand_bound hat
  have hindex := index_of_mem_writesOf hr
  have hlt : r.index < 12 := index_lt r
  rw [opww_eq] at hj
  rw [regBytes_eq] at hlo hhi
  rcases hrange with hbelow | habove | ⟨hres1, habove⟩
  · omega
  · omega
  · exact hres1 (eq_res1_of_index (r := r) (by omega) ▸ hr)

/-! ### the table of errors -/

/-- The errors a command's own rule raises stand in the row of its OPCODE (60_exceptions.md R203). -/
theorem errorsOf_in_errorRows (i : Instr) : ∀ err ∈ errorsOf i,
    (err.code.toNat, err.detail.toNat) ∈ errorRows i.opcode := by
  cases i <;> simp [errorsOf, errorRows, Instr.opcode, CmdError.code, CmdError.detail]

/-- Reserved bits are an error of every defined OPCODE (60_exceptions.md R203). -/
theorem reservedBits_in_errorRows : ∀ o ∈ definedOpcodes, (4, 2) ∈ errorRows o := by
  decide

/-- An undefined OPCODE has a row of its own (60_exceptions.md R203). -/
theorem errorRows_undefined {o : Nat} (h : o ∉ definedOpcodes) : errorRows o = [(4, 1)] := by
  simp only [definedOpcodes, List.mem_cons, List.not_mem_nil, or_false, not_or] at h
  simp [errorRows, h]

/-- The error of an illegal word stands in the row of its OPCODE (30_encoding.md R81). -/
theorem illegalError_in_errorRows {w : Word} {why : IllegalWord} (hd : decode w = .error why) :
    ((illegalError why).code.toNat, (illegalError why).detail.toNat) ∈ errorRows (w.toNat % 256) := by
  by_cases hop : w.toNat % 256 ∈ definedOpcodes
  · obtain ⟨i, -, hdecode⟩ := decode_definedOpcode hop
    rw [hd] at hdecode
    split at hdecode
    · cases hdecode
    · cases hdecode
      exact reservedBits_in_errorRows _ hop
  · cases hd.symm.trans (decode_undefinedOpcode hop)
    rw [errorRows_undefined hop]
    exact List.mem_singleton_self _

/-- A command that turns ERROR on raises one of its own errors (60_exceptions.md R203). -/
theorem exec_raises_own {i : Instr} {s t : State} (herr : s.error = false) (h : exec i s = .next t)
    (ht : t.error = true) : ∃ err ∈ errorsOf i, t = s.raise err := by
  rcases exec_cases i s with ⟨err, hmem, u⟩ | ⟨_, -, -, u⟩ | ⟨_, -, -, u⟩ | ⟨_, -, -, u⟩ <;>
    cases u.symm.trans h
  · exact ⟨err, hmem, rfl⟩
  all_goals cases herr.symm.trans ht

/-- Settles O12: the error is that of an illegal word or one of the command's own. -/
theorem errorsStayInTable : Obligations.ErrorsStayInTable := by
  intro s t hbusy herr h ht
  cases hd : decode s.cmd with
  | error why =>
    cases (unitStep_illegal hbusy hd).symm.trans h
    exact illegalError_in_errorRows hd
  | ok i =>
    obtain ⟨err, hmem, rfl⟩ := exec_raises_own herr ((unitStep_decoded hbusy hd).symm.trans h) ht
    obtain ⟨hopcode, -, -⟩ := Laws.decode_ok hd
    rw [← opcodeField_eq, ← hopcode]
    exact errorsOf_in_errorRows i err hmem

end Sys2Proof.Proofs
end

section
/-! PROOFS. The effect of a reset, hardware or soft, on an idle or a running unit (10_state.md R38, R41,
70_reset_and_hazards.md section 1). -/

namespace Sys2Proof.Proofs

open Sys2Proof Sys2Proof.Machine Sys2Proof.Claims

/-- A CTRL write with bit 0 set is the reset (10_state.md R38). -/
theorem busWrite_ctrl_reset {v : Word} (hv : v.getLsbD 0 = true) (s : State) :
    busWrite 0x020#12 32 v s = { s.resetBlock with response := some .writeOk } := by
  have hat : locate (0x020#12).toNat = .ctrl := rfl
  rw [busWrite_legal rfl, hat, writeReg_ctrl_reset hv]

/-- Settles O16: a reset is `State.resetBlock`, and so is a write of a 1 to CTRL bit 0. -/
theorem resetEffect : Obligations.ResetEffect := by
  intro s
  have hzero : ∀ r, s.resetBlock.val r = 0 := fun r => by
    rw [State.val, resetBlock_reg, zeroOperand_eq, BitVec.toNat_ofNat, Nat.zero_mod]
  exact ⟨s.resetBlock, rfl, hzero, rfl, rfl, rfl, rfl, rfl, rfl, rfl, rfl, rfl, rfl, rfl, rfl, rfl,
    fun v hv => congrArg _ (busWrite_ctrl_reset hv s)⟩

/-- Settles O17: CTRL stands at 0x020 and its bit 0 decides. -/
theorem controlRegisterActs : Obligations.ControlRegisterActs := by
  intro s v
  have hat : locate (0x020#12).toNat = .ctrl := rfl
  refine ⟨busWrite_ctrl_reset (s := s), fun hv => ?_, busRead_legal rfl s⟩
  rw [busWrite_legal rfl, hat, writeReg_ctrl_noop hv]

/-- Settles O18: the reset leaves what it does whatever the completion wrote, and the completion leaves the moves
to come. -/
theorem softResetDiscardsCompletion : Obligations.SoftResetDiscardsCompletion := by
  intro s t u v hv ht hu
  obtain ⟨s', hunit⟩ := stepEvent_next .unit s
  have hreset (x : State) : runEvents [.write 0x020#12 32 v] x =
      .next { x.resetBlock with response := some .writeOk } :=
    (runEvents_singleton _ x).trans (congrArg _ (busWrite_ctrl_reset hv x))
  rw [runEvents, hunit] at ht
  cases (hreset s').symm.trans ht
  cases (hreset s).symm.trans hu
  simp only [State.resetBlock, stepEvent_events hunit]

end Sys2Proof.Proofs
end

section
/-! PROOFS. The window: writes without effect, the decode of bus addresses, byte lanes, and the host's `ldop` and
`wait` (20_memory.md sections 1 to 3, 30_encoding.md section 5). -/

namespace Sys2Proof.Proofs

open Sys2Proof Sys2Proof.Machine Sys2Proof.Claims

/-! ### writes without effect -/

/-- A legal write to a register that ignores it only gets its response (20_memory.md R67). -/
theorem busWrite_ignored {s : State} {off : Offset} {v : Word} {o : Nat} {at_ : WindowReg}
    (halign : off.toNat % 4 = 0) (hoff : off.toNat = o) (hat : locate o = at_)
    (hignored : writeReg v s at_ = s) : busWrite off 32 v s = { s with response := some .writeOk } := by
  rw [busWrite_legal ((legalAccess_iff off 32).mpr ⟨rfl, halign⟩), hoff, hat, hignored]

/-- Settles O23, by what stands at the offset. -/
theorem readOnlyWritesIgnored : Obligations.ReadOnlyWritesIgnored := by
  intro s off v halign hoff
  rcases hoff with h | h | h | h | h
  · exact busWrite_ignored (at_ := .id) halign h rfl rfl
  · exact busWrite_ignored (at_ := .version) halign h rfl rfl
  · exact busWrite_ignored (at_ := .config) halign h rfl rfl
  · exact busWrite_ignored (at_ := .roundsDone) halign h rfl rfl
  · exact busWrite_ignored (at_ := .reserved) halign rfl (locate_reserved h) rfl

/-! ### bus addresses -/

/-- An address in the window is at its offset from BASE (20_memory.md R61). -/
theorem routeAddress_inside {addr : Nat} (hlo : Config.base ≤ addr) (hhi : addr ≤ Config.base + 0xFFF) :
    routeAddress addr = some (BitVec.ofNat 12 (addr - Config.base)) :=
  if_pos ⟨hlo, hhi⟩

/-- Any other address is none of the block's (20_memory.md R61). -/
theorem routeAddress_outside {addr : Nat} (h : addr < Config.base ∨ Config.base + 0xFFF < addr) :
    routeAddress addr = none :=
  if_neg (by omega)

/-- Settles O26: an access inside the window is one at the offset of its address. -/
theorem addressDecode : Obligations.AddressDecode := by
  refine ⟨Nat.mul_mod_right _ _, fun s addr width v => ⟨fun hlo hhi => ?_, fun hout => ?_⟩⟩
  · refine ⟨BitVec.ofNat 12 (addr - Config.base), Nat.mod_eq_of_lt (by omega), ?_, ?_⟩
    · rw [State.hostWritesAt, routeAddress_inside hlo hhi]
    · rw [State.hostReadsAt, routeAddress_inside hlo hhi]
  · rw [State.hostWritesAt, State.hostReadsAt, routeAddress_outside hout]
    exact ⟨rfl, rfl⟩

/-! ### byte lanes -/

/-- A byte lane as a number (20_memory.md R65). -/
theorem byteLane_toNat (w : Word) (i : Nat) : (byteLane w i).toNat = w.toNat / 2 ^ (8 * i) % 256 := by
  rw [byteLane, BitVec.extractLsb'_toNat, Nat.shiftRight_eq_div_pow]

/-- Settles O27: the byte's word stands at 4k and its lane is i. -/
theorem byteLanesLittleEndian : Obligations.ByteLanesLittleEndian := by
  intro s k i hk hi
  have hbyte : (BitVec.ofNat 12 (4 * k + i)).toNat = 4 * k + i := Nat.mod_eq_of_lt (by omega)
  have hword : (BitVec.ofNat 12 (4 * k)).toNat = 4 * k := Nat.mod_eq_of_lt (by omega)
  have hbase : (4 * k + i) / 4 * 4 = 4 * k := by omega
  have hlane : (4 * k + i) % 4 = i := by omega
  rw [readByte, readWord, hbyte, hword, hbase, hlane, byteLane_toNat]

/-! ### the host's `ldop` and `wait` -/

/-- A host writes every register but RES0 and RES1 (10_state.md R21). -/
theorem hostWritable_of_ne {r : Reg} (h0 : r ≠ .res0) (h1 : r ≠ .res1) : r.hostWritable = true := by
  cases r with
  | res0 => exact absurd rfl h0
  | res1 => exact absurd rfl h1
  | _ => rfl

/-- Settles O28: after the writes of all OPWW words every word of the register is v's. -/
theorem loadOperandWrites : Obligations.LoadOperandWrites := by
  intro s r v hidle h0 h1
  obtain ⟨x, hwords, hrun⟩ := runEvents_load_prefix r (hostWritable_of_ne h0 h1) v [] Config.opww 0 s
    (Nat.zero_add _).le hidle
  have hx : x = v := operand_ext fun j hj => by
    rw [hwords j hj, if_pos ⟨Nat.zero_le j, (Nat.zero_add Config.opww).symm ▸ hj⟩]
  have hne : Config.opww ≠ 0 := by rw [opww_eq]; decide
  rw [List.append_nil, hx, if_neg hne, ← List.range_eq_range'] at hrun
  exact hrun

/-- The host after it polled STATUS into x: the word read is assigned, and the next statement follows. -/
def afterPoll (h : Hosted) (x : HostVar) : Hosted :=
  { h.setVar x ((statusWord h.dev).setWidth Config.opw) with
    dev := { h.dev with response := some (.readOk (statusWord h.dev)) }, pc := h.pc + 1 }

/-- The variable holds STATUS after the poll. -/
theorem afterPoll_getVar (h : Hosted) (x : HostVar) :
    (afterPoll h x).getVar x = (statusWord h.dev).setWidth Config.opw :=
  getVar_setVar h x _

/-- The poll: `rd32 STATUS` assigns the word it reads and goes on (30_encoding.md R88, 20_memory.md R66). -/
theorem hostStep_pollStatus {h : Hosted} {x : HostVar} (hrun : h.halted = false)
    (hstmt : h.prog[h.pc]? = some (.rd32 0x014#12 x)) : h.hostStep = afterPoll h x := by
  have hread : busRead 0x014#12 32 h.dev =
      { h.dev with response := some (.readOk (statusWord h.dev)) } := busRead_legal rfl _
  simp only [Hosted.hostStep, hrun, hstmt, hread, responseData, Bool.false_eq_true, if_false, afterPoll]

/-- The branch: `bnz` goes to its target unless the masked variable is 0, and leaves the rest
(30_encoding.md R88). -/
theorem hostStep_bnz {h : Hosted} {x : HostVar} {mask : Word} {target : Nat} (hrun : h.halted = false)
    (hstmt : h.prog[h.pc]? = some (.bnz x mask target)) :
    h.hostStep = { h with pc := if maskedZero (h.getVar x) mask then h.pc + 1 else target } := by
  simp only [Hosted.hostStep, hrun, hstmt, Bool.false_eq_true, if_false]

/-- BUSY is bit 0 of STATUS (10_state.md R30). -/
theorem statusWord_mod_two (s : State) : (statusWord s).toNat % 2 = flag s.busy := by
  have hle : flag s.busy ≤ 1 := by cases s.busy <;> decide
  rw [statusWord_toNat]
  omega

/-- A variable that holds STATUS is 0 under the mask of BUSY exactly when the unit is idle. -/
theorem maskedZero_status (s : State) :
    maskedZero ((statusWord s).setWidth Config.opw) 0x1#32 = !s.busy := by
  have hmasked : statusWord s &&& 0x1#32 = BitVec.ofNat 32 (flag s.busy) := by
    apply BitVec.eq_of_toNat_eq
    rw [BitVec.toNat_and, BitVec.toNat_ofNat, Nat.one_mod_eq_one.mpr (by decide), Nat.and_one_is_mod,
      statusWord_mod_two]
    cases s.busy <;> rfl
  rw [maskedZero, operandWord_setWidth, hmasked]
  cases s.busy <;> rfl

/-- Settles O29: one poll, then a branch on the STATUS it read. -/
theorem waitPollsUntilIdle : Obligations.WaitPollsUntilIdle := by
  rintro h x _ hrun rfl hpoll hbranch
  refine ⟨_, rfl, ?_⟩
  rw [hostStep_pollStatus hrun hpoll, hostStep_bnz (h := afterPoll h x) hrun hbranch, afterPoll_getVar,
    maskedZero_status]
  refine ⟨?_, rfl, ?_⟩
  · cases h.dev.busy <;> rfl
  · exact (congrArg BitVec.toNat (afterPoll_getVar h x)).trans (setWidth_opw_toNat _)

end Sys2Proof.Proofs
end

section
/-! PROOFS. Who writes the operand registers (10_state.md section 1). -/

namespace Sys2Proof.Proofs

open Sys2Proof Sys2Proof.Machine Sys2Proof.Claims

/-- The unit's move changes a register only as a completion, and then RES0 or RES1 (10_state.md R23). -/
theorem unitStep_changes_reg {s t : State} {r : Reg} (h : unitStep s = .next t)
    (hr : t.reg r ≠ s.reg r) : s.busy = true ∧ 10 ≤ r.index := by
  cases hbusy : s.busy with
  | false =>
    cases (unitStep_idle hbusy).symm.trans h
    exact absurd rfl hr
  | true =>
    refine ⟨rfl, ?_⟩
    cases hd : decode s.cmd with
    | error why =>
      cases (unitStep_illegal hbusy hd).symm.trans h
      exact absurd rfl hr
    | ok i =>
      obtain ⟨t', h', -, -, -, -, -, -, -, -, -, hframe, -⟩ := everyCommandCompletes i s
      cases h'.symm.trans ((unitStep_decoded hbusy hd).symm.trans h)
      exact index_of_mem_writesOf (not_not.mp (mt (hframe r) hr))

/-- A legal write changes a register only as an idle write of one of its words or as a soft reset (10_state.md R22,
R38). -/
theorem writeReg_changes_reg {s : State} {v : Word} {at_ : WindowReg} {r : Reg}
    (hr : (writeReg v s at_).reg r ≠ s.reg r) :
    (∃ j, at_ = .operand r j ∧ r.hostWritable = true ∧ s.busy = false) ∨
      (at_ = .ctrl ∧ v.getLsbD 0 = true) := by
  rcases writeReg_cases v s at_ with h | ⟨-, -, h⟩ | ⟨-, -, h⟩ | ⟨-, h⟩ | ⟨-, h⟩ | ⟨hat, hv, -⟩ |
    ⟨r', j, hat, hw, hidle, h⟩
  · exact absurd (congrArg (·.reg r) h) hr
  · exact absurd (congrArg (·.reg r) h) hr
  · exact absurd (congrArg (·.reg r) h) hr
  · exact absurd (congrArg (·.reg r) h) hr
  · exact absurd (congrArg (·.reg r) h) hr
  · exact .inr ⟨hat, hv⟩
  · have hsame : r = r' := by
      by_contra hne
      rw [h, setReg_reg, if_neg hne] at hr
      exact hr rfl
    subst hsame
    exact .inl ⟨j, hat, hw, hidle⟩

/-- Settles O32, by the move: a read and a refused write change no register, and the others are
`unitStep_changes_reg` and `writeReg_changes_reg`. -/
theorem registerWritersAreThese : Obligations.RegisterWritersAreThese := by
  intro ev s t i r h hi hr
  have hindex := index_of_fileOrder hi
  cases ev with
  | read off width =>
    cases h
    exact absurd rfl hr
  | hardwareReset => exact .inr (.inr (.inl rfl))
  | unit =>
    obtain ⟨hbusy, hres⟩ := unitStep_changes_reg h hr
    exact .inl ⟨hindex ▸ hres, rfl, hbusy⟩
  | write off width data =>
    cases h
    cases hl : legalAccess off width with
    | false =>
      rw [busWrite_illegal hl] at hr
      exact absurd rfl hr
    | true =>
      obtain ⟨rfl, -⟩ := (legalAccess_iff off width).mp hl
      rw [busWrite_legal hl] at hr
      rcases writeReg_changes_reg hr with ⟨j, hat, hw, hidle⟩ | ⟨hat, hv⟩
      · obtain ⟨hj, hlo, hhi⟩ := locate_operand_bound hat
        rw [regBytes_eq, hindex] at hlo hhi
        rw [opww_eq] at hj
        rw [hostWritable_eq, hindex, decide_eq_true_eq] at hw
        exact .inr (.inl ⟨hw, hidle, off, data, rfl, by omega, by omega⟩)
      · exact .inr (.inr (.inr ⟨data, by rw [(locate_eq_ctrl_iff off).mp hat], hv⟩))

end Sys2Proof.Proofs
end

section
/-! PROOFS. The outcome of a running command is the same however late its completion comes
(70_reset_and_hazards.md sections 2 and 3). -/

namespace Sys2Proof.Proofs

open Sys2Proof Sys2Proof.Machine Sys2Proof.Claims

/-! ### what a host changes while the unit is busy -/

/-- The state with another host's side: OVERRUN, the interrupt enables, the bus response and the moves to come,
the fields that accesses to a busy unit may change and that no command reads or writes. -/
def withHostSide (s h : State) : State :=
  { s with
    overrun := h.overrun, doneIe := h.doneIe, errIe := h.errIe, ovrIe := h.ovrIe, response := h.response
    events := h.events }

/-- A completion with one value neither reads nor writes the host's side. -/
theorem completeOne_withHostSide (s h : State) (cs : List Check) (v : Nat) :
    (withHostSide s h).completeOne cs v = withHostSide (s.completeOne cs v) h := by
  unfold State.completeOne
  cases firstError cs <;> rfl

/-- A completion with a point neither reads nor writes the host's side. -/
theorem completePoint_withHostSide (s h : State) (cs : List Check) (v : Except CmdError (Nat × Nat)) :
    (withHostSide s h).completePoint cs v = withHostSide (s.completePoint cs v) h := by
  unfold State.completePoint
  cases firstError cs with
  | some err => rfl
  | none => cases v <;> rfl

/-- A command's completion neither reads nor writes the host's side (10_state.md R40). -/
theorem exec_withHostSide (i : Instr) (s h : State) :
    ∃ t, exec i s = .next t ∧ exec i (withHostSide s h) = .next (withHostSide t h) := by
  cases i with
  | mrTest k =>
    have hcheck : checkOddMod (withHostSide s h) 5 = checkOddMod s 5 := rfl
    simp only [exec, execMrTest_eq, hcheck]
    cases firstError [checkOddMod s 5, (decide (k = 0), .roundsZero)] with
    | some err => exact ⟨_, rfl, rfl⟩
    | none => exact ⟨_, rfl, rfl⟩
  | ecDbl k | ecAdd k | ecSmul k => exact ⟨_, rfl, congrArg _ (completePoint_withHostSide s h _ _)⟩
  | modmul k | montmul k | montTo k | montFrom k | modexp k | modinv k | mrRound k | ecCheck k =>
    exact ⟨_, rfl, congrArg _ (completeOne_withHostSide s h _ _)⟩

/-- Nor does the unit's move (10_state.md R40). -/
theorem unitStep_withHostSide (s h : State) :
    ∃ t, unitStep s = .next t ∧ unitStep (withHostSide s h) = .next (withHostSide t h) := by
  cases hbusy : s.busy with
  | false => exact ⟨s, unitStep_idle hbusy, unitStep_idle hbusy⟩
  | true =>
    cases hd : decode s.cmd with
    | error why => exact ⟨_, unitStep_illegal hbusy hd, unitStep_illegal (s := withHostSide s h) hbusy hd⟩
    | ok i =>
      obtain ⟨t, ht, ht'⟩ := exec_withHostSide i s h
      exact ⟨t, (unitStep_decoded hbusy hd).trans ht,
        (unitStep_decoded (s := withHostSide s h) hbusy hd).trans ht'⟩

/-! ### accesses to a running unit -/

/-- A running unit reports no outcome (10_state.md R29, R32, R33). -/
def RunsClear (s : State) : Prop :=
  s.busy = true ∧ s.done = false ∧ s.error = false ∧ s.errCode = 0 ∧ s.errDetail = 0

/-- That follows from the invariant. -/
theorem runsClear_of_statusInv {s : State} (hs : StatusInv s) (hbusy : s.busy = true) : RunsClear s := by
  obtain ⟨hdone, herror, -⟩ := hs.busy_clear hbusy
  refine ⟨hbusy, hdone, herror, ?_, hs.no_detail herror⟩
  by_contra hcode
  cases herror.symm.trans (hs.error_code.mpr hcode)

/-- There is nothing for a STATUS write to clear but OVERRUN (10_state.md R35). -/
theorem clearStatus_running {s : State} (hs : RunsClear s) (w : Word) :
    clearStatus w s = withHostSide s (clearStatus w s) := by
  obtain ⟨-, hdone, herror, hcode, hdetail⟩ := hs
  rw [clearStatus, withHostSide, hdone, herror, hcode, hdetail]
  simp only [Bool.false_and, ite_self]

/-- A legal write to a running unit, short of a soft reset, changes the host's side only (10_state.md R34). -/
theorem writeReg_running {s : State} (hs : RunsClear s) {v : Word} {at_ : WindowReg}
    (hreset : at_ = .ctrl → v.getLsbD 0 = false) :
    writeReg v s at_ = withHostSide s (writeReg v s at_) := by
  have hbusy := hs.1
  rcases writeReg_cases v s at_ with h | ⟨-, hidle, -⟩ | ⟨-, -, h⟩ | ⟨-, h⟩ | ⟨-, h⟩ | ⟨hat, hv, -⟩ |
    ⟨_, _, -, -, hidle, -⟩
  · rw [h]; rfl
  · cases hbusy.symm.trans hidle
  · rw [h]; rfl
  · rw [h]; exact clearStatus_running hs v
  · rw [h]; rfl
  · cases hv.symm.trans (hreset hat)
  · cases hbusy.symm.trans hidle

/-- So does any write that is no soft reset, legal or not. -/
theorem busWrite_running {s : State} (hs : RunsClear s) {off : Offset} {v : Word}
    (hreset : off = 0x020#12 → v.getLsbD 0 = false) (width : Nat) :
    busWrite off width v s = withHostSide s (busWrite off width v s) := by
  cases hl : legalAccess off width with
  | false => rw [busWrite_illegal hl]; rfl
  | true =>
    rw [busWrite_legal hl,
      writeReg_running hs fun hat => hreset ((locate_eq_ctrl_iff off).mp hat)]
    rfl

/-- So does every access that is no soft reset. -/
theorem stepEvent_running {s : State} (hs : RunsClear s) {ev : Event} (hev : NoReset ev) :
    ∃ h, stepEvent ev s = .next (withHostSide s h) := by
  cases ev with
  | unit => exact hev.elim
  | hardwareReset => exact hev.elim
  | read off width => exact ⟨busRead off width s, rfl⟩
  | write off width data =>
    exact ⟨busWrite off width data s, congrArg Host.Outcome.next (busWrite_running hs hev width)⟩

/-- And so does any list of them. -/
theorem runEvents_running (accesses : List Event) : ∀ s : State, RunsClear s →
    (∀ ev ∈ accesses, NoReset ev) → ∃ h, runEvents accesses s = .next (withHostSide s h) := by
  induction accesses with
  | nil => exact fun s _ _ => ⟨s, rfl⟩
  | cons ev rest ih =>
    intro s hs hall
    rw [List.forall_mem_cons] at hall
    obtain ⟨h₁, hstep⟩ := stepEvent_running hs hall.1
    obtain ⟨h₂, hrest⟩ := ih (withHostSide s h₁) hs hall.2
    exact ⟨h₂, by rw [runEvents, hstep]; exact hrest⟩

/-- Settles O36: the accesses change the host's side only, which the unit's move neither reads nor writes. -/
theorem outcomeIndependentOfLatency : Obligations.OutcomeIndependentOfLatency := by
  intro accesses s t u hs hbusy hall ht hu
  obtain ⟨h, hrun⟩ := runEvents_running accesses s (runsClear_of_statusInv hs hbusy) hall
  obtain ⟨v, hv, hv'⟩ := unitStep_withHostSide s h
  rw [runEvents_append _ _ _ _ hrun, runEvents_singleton] at ht
  rw [runEvents_singleton] at hu
  cases hv'.symm.trans ht
  cases hv.symm.trans hu
  exact ⟨rfl, rfl, rfl, rfl, rfl, rfl, rfl, rfl, rfl⟩

end Sys2Proof.Proofs
end

section
/-! PROOFS. The laws of MODEXP and the RSA round trip (41_modular_exponentiation.md, laws). -/

namespace Sys2Proof.Proofs

open Sys2Proof Sys2Proof.Machine Sys2Proof.Claims

/-! ### the answer of MODEXP on chosen operands -/

/-- A holds the value put in it, where it fits a register. -/
theorem withAE_val_a (s : State) {a : Nat} (e : Nat) (ha : a < 2 ^ Config.opw) :
    (withAE s a e).val .a = a :=
  Nat.mod_eq_of_lt ha

/-- E holds the value put in it, where it fits a register. -/
theorem withAE_val_e (s : State) (a : Nat) {e : Nat} (he : e < 2 ^ Config.opw) :
    (withAE s a e).val .e = e :=
  Nat.mod_eq_of_lt he

/-- MODEXP answers a^e mod N (R120). -/
theorem answer_modexp {s : State} {a e : Nat} (herr : s.error = false) (hn : OddMod s 3)
    (ha : a < s.val .n) (he : e < 2 ^ Config.opw) :
    answer (.modexp 0) (withAE s a e) = some (a ^ e % s.val .n) := by
  obtain ⟨hok, -⟩ := exec_oneResidue (exec_modexp 0 (withAE s a e))
  rw [withAE_val_a s e (ha.trans (val_lt s .n)), withAE_val_e s a he] at hok
  exact answer_eq_some (hok hn ha) herr ((Nat.mod_lt _ (modulus_pos hn)).trans (val_lt s .n))

/-! ### the laws of the power -/

/-- Fermat's little theorem for residues. -/
theorem pow_pred_mod_prime {a n : Nat} (hn : n.Prime) (ha : a < n) (h0 : a ≠ 0) :
    a ^ (n - 1) % n = 1 := by
  have hcoprime : Nat.Coprime a n := (Nat.coprime_of_lt_prime h0 ha hn).symm
  have hfermat := Nat.ModEq.pow_totient hcoprime
  rw [Nat.totient_prime hn] at hfermat
  exact Nat.mod_eq_of_modEq hfermat hn.one_lt

/-- Settles O43: the answers are powers, and the laws are those of powers. -/
theorem modexpLaws : Obligations.ModexpLaws := by
  intro s a e1 e2 herr hn ha he
  have hlt : ∀ x, x % s.val .n < s.val .n := fun x => Nat.mod_lt x (modulus_pos hn)
  have hpower {e : Nat} (he : e < 2 ^ Config.opw) := answer_modexp herr hn ha he
  have hsmall {e : Nat} (he : e < 3) : e < 2 ^ Config.opw :=
    (he.trans_le hn.2).trans (val_lt s .n)
  refine ⟨a ^ e1 % s.val .n, a ^ e2 % s.val .n, a ^ (e1 + e2) % s.val .n, a ^ 2 % s.val .n,
    hpower (by omega), hpower (by omega), hpower he, ?sum, ?one, hpower (hsmall (by decide)), ?square,
    fun hprime h0 => ?fermat⟩
  case sum => rw [answer_modmul herr hn (hlt _) (hlt _), ← Nat.mul_mod, ← pow_add]
  case one => rw [hpower (hsmall (by decide)), pow_one, Nat.mod_eq_of_lt ha]
  case square => rw [answer_modmul herr hn ha ha, pow_two]
  case fermat =>
    rw [hpower (e := s.val .n - 1) ((Nat.sub_le _ _).trans_lt (val_lt s .n)),
      pow_pred_mod_prime hprime ha h0]

/-! ### the RSA round trip -/

/-- On a prime p an exponent one above a multiple of p − 1 gives every number back. -/
theorem pow_modEq_self {p : Nat} (hp : p.Prime) (m k : Nat) : m ^ (1 + (p - 1) * k) ≡ m [MOD p] := by
  by_cases hdvd : p ∣ m
  · have hzero : m ≡ 0 [MOD p] := (Nat.modEq_zero_iff_dvd).mpr hdvd
    have hpow := hzero.pow (1 + (p - 1) * k)
    rw [zero_pow (by omega)] at hpow
    exact hpow.trans hzero.symm
  · have hfermat := Nat.ModEq.pow_totient ((Nat.Prime.coprime_iff_not_dvd hp).mpr hdvd).symm
    rw [Nat.totient_prime hp] at hfermat
    calc m ^ (1 + (p - 1) * k) = m * (m ^ (p - 1)) ^ k := by rw [pow_add, pow_one, pow_mul]
      _ ≡ m * 1 ^ k [MOD p] := (hfermat.pow k).mul_left m
      _ = m := by rw [one_pow, mul_one]

/-- On two distinct primes an exponent that is 1 modulo (p − 1)·(q − 1) gives every number back, coprime to them or
not. -/
theorem pow_modEq_self_of_primes {p q x m : Nat} (hp : p.Prime) (hq : q.Prime) (hne : p ≠ q)
    (hx : x % ((p - 1) * (q - 1)) = 1) : m ^ x ≡ m [MOD p * q] := by
  obtain ⟨k, rfl⟩ : ∃ k, x = 1 + (p - 1) * (q - 1) * k := by
    have hdiv := Nat.mod_add_div x ((p - 1) * (q - 1))
    rw [hx] at hdiv
    exact ⟨_, hdiv.symm⟩
  refine (Nat.modEq_and_modEq_iff_modEq_mul ((Nat.coprime_primes hp hq).mpr hne)).mp ⟨?_, ?_⟩
  · rw [Nat.mul_assoc]
    exact pow_modEq_self hp m _
  · rw [Nat.mul_comm (p - 1), Nat.mul_assoc]
    exact pow_modEq_self hq m _

/-- An odd product of two primes is at least 3. -/
theorem oddMod_of_primes {s : State} {p q : Nat} (hp : p.Prime) (hq : q.Prime) (hn : s.val .n = p * q)
    (hodd : s.val .n % 2 = 1) : OddMod s 3 := by
  have hle : 2 * 2 ≤ p * q := Nat.mul_le_mul hp.two_le hq.two_le
  exact ⟨hodd, by omega⟩

/-- Settles O44: the second power has the exponent e·d. -/
theorem rsaRoundTrip : Obligations.RsaRoundTrip := by
  intro s p q e d m herr hp hq hne hpq hodd he hd hed hm
  have hn := oddMod_of_primes hp hq hpq hodd
  refine ⟨m ^ e % s.val .n, answer_modexp herr hn hm he, ?_⟩
  have hback := pow_modEq_self_of_primes (m := m) hp hq hne hed
  rw [← hpq] at hback
  rw [answer_modexp herr hn (Nat.mod_lt _ (modulus_pos hn)) hd, ← Nat.pow_mod, ← pow_mul,
    Nat.mod_eq_of_modEq hback hm]

end Sys2Proof.Proofs
end

section
/-! PROOFS. MR_TEST on a given sequence of draws, and that primes pass every round (43_miller_rabin.md). -/

namespace Sys2Proof.Proofs

open Sys2Proof Sys2Proof.Machine Sys2Proof.Claims

/-! ### given draws -/

/-- Settles O48: past its checks MR_TEST leaves what its rounds leave, and on legal queued draws those are
`mrRounds_pass` and `mrRounds_fail`. -/
theorem mrTestFollowsDraws : Obligations.MrTestFollowsDraws := by
  intro k s
  refine ⟨fun ds rest hn hk _ hqueue hlength hlegal => ?_, exec_mrTest_not_oddMod,
    fun hn hk => hk ▸ exec_mrTest_zero hn⟩
  have hport : s.rng = { queue := ds ++ rest, taken := s.rng.taken } := by rw [← hqueue]
  subst hlength
  rw [exec_mrTest_rounds hn hk]
  refine ⟨fun hpass => ?_, fun i a hi hfail hbefore => ?_⟩
  · have hrun := mrRounds_pass (s.val .n) ds rest 0 s.rng.taken hlegal
      fun a ha => (mrPass_iff_mrPasses hn a).mpr (hpass a ha)
    rw [← hport, Nat.zero_add] at hrun
    rw [afterTest_eq hrun]
    rfl
  · have hrun := mrRounds_fail (s.val .n) ds rest 0 s.rng.taken i a hlegal hi
      ((mrPass_eq_false_iff hn a).mpr hfail) fun b hb => (mrPass_iff_mrPasses hn b).mpr (hbefore b hb)
    rw [← hport, Nat.zero_add] at hrun
    rw [afterTest_eq hrun]
    rfl

/-! ### primes -/

/-- Where a square is 1 only for 1 and −1, a number whose 2^k-th power is 1 is 1, or −1 is among its powers before:
by induction on k. -/
theorem eq_one_or_exists_pow_eq_neg_one {K : Type} [CommRing K] [NoZeroDivisors K] {x : K} (k : Nat)
    (h : x ^ 2 ^ k = 1) : x = 1 ∨ ∃ j, j < k ∧ x ^ 2 ^ j = -1 := by
  induction k with
  | zero => exact .inl (by simpa using h)
  | succ k ih =>
    rw [pow_succ, pow_mul, pow_two, mul_self_eq_one_iff] at h
    rcases h with hone | hneg
    · exact (ih hone).imp_right fun ⟨j, hj, hpow⟩ => ⟨j, by omega, hpow⟩
    · exact .inr ⟨k, by omega, hneg⟩

/-- In Z/nZ a power is 1 exactly when its remainder is 1. -/
theorem pow_mod_eq_one {n a e : Nat} (hn : 2 ≤ n) (h : (a : ZMod n) ^ e = 1) : a ^ e % n = 1 := by
  have hcast : ((a ^ e : Nat) : ZMod n) = (1 : Nat) := by push_cast; exact h
  exact Nat.mod_eq_of_modEq ((ZMod.natCast_eq_natCast_iff _ _ n).mp hcast) (by omega)

/-- In Z/nZ a power is −1 exactly when its remainder is n − 1. -/
theorem pow_mod_eq_pred {n a e : Nat} (hn : 2 ≤ n) (h : (a : ZMod n) ^ e = -1) : a ^ e % n = n - 1 := by
  have hcast : ((a ^ e : Nat) : ZMod n) = (n - 1 : Nat) := by
    rw [Nat.cast_sub (by omega)]
    push_cast
    rw [h, ZMod.natCast_self, zero_sub]
  exact Nat.mod_eq_of_modEq ((ZMod.natCast_eq_natCast_iff _ _ n).mp hcast) (by omega)

/-- A prime passes the round of every witness that it does not divide: a^(n − 1) = 1 in the field Z/nZ. -/
theorem mrPasses_of_prime {n a : Nat} (hn : n.Prime) (ha : a < n) (h0 : a ≠ 0) (hlt : n < 2 ^ Config.opw) :
    MrPasses n a := by
  have hfield : Fact n.Prime := ⟨hn⟩
  obtain ⟨hkq, hq⟩ := splitTwos_spec Config.opw (n - 1) (Nat.sub_pos_of_lt hn.one_lt) (by omega)
  refine ⟨_, _, hkq, hq, ?_⟩
  have hne : (a : ZMod n) ≠ 0 := fun hzero =>
    h0 (Nat.eq_zero_of_dvd_of_lt ((ZMod.natCast_eq_zero_iff a n).mp hzero) ha)
  have hfermat := ZMod.pow_card_sub_one_eq_one hne
  rw [hkq, Nat.mul_comm, pow_mul] at hfermat
  rcases eq_one_or_exists_pow_eq_neg_one _ hfermat with hone | ⟨j, hj, hneg⟩
  · exact .inl (pow_mod_eq_one hn.two_le hone)
  · rw [← pow_mul, Nat.mul_comm] at hneg
    exact .inr ⟨j, hj, pow_mod_eq_pred hn.two_le hneg⟩

/-- RES0 after a result that fits a register. -/
theorem oneResult_val_res0 (s : State) {v : Nat} (hv : v < 2 ^ Config.opw) :
    (oneResult s v).val .res0 = v :=
  Nat.mod_eq_of_lt hv

/-- Settles O50: every legal witness passes, so of the outcomes of MR_ROUND and MR_TEST only the passing ones are
left. -/
theorem primesAlwaysPass : Obligations.PrimesAlwaysPass := by
  intro s t herr hprime hleast
  have hodd : s.val .n % 2 = 1 := (hprime.eq_two_or_odd).resolve_left (by omega)
  have hn : OddMod s 5 := ⟨hodd, hleast⟩
  have hlt := val_lt s .n
  have hone : 1 < 2 ^ Config.opw := by omega
  have hpass (a : Nat) (ha : LegalWitness s a) : MrPasses (s.val .n) a :=
    mrPasses_of_prime hprime (by omega) (by omega) hlt
  refine ⟨fun k ha h => ?_, fun k hk hmax h => ?_⟩
  · obtain ⟨hround, -⟩ := mrRoundVerdict k s
    obtain ⟨v, hexec, ⟨-, rfl⟩ | ⟨hfail, -⟩⟩ := hround hn ha
    · cases hexec.symm.trans h
      exact oneResult_val_res0 s hone
    · exact absurd (hpass _ ha) hfail
  · obtain ⟨htest, -⟩ := mrTestUnderEverySource k s
    obtain ⟨ds, v, port, hexec, -, -, -, hlegal, -, hverdict⟩ := htest hn hk hmax
    rcases hverdict with ⟨rfl, hcount, -⟩ | ⟨-, a, hlast, hfail⟩
    · cases hexec.symm.trans h
      have hrounds : (BitVec.ofNat 8 ds.length).toNat = k := by
        rw [hcount]
        exact Nat.mod_eq_of_lt (by omega)
      exact ⟨herr, oneResult_val_res0 s hone, hrounds⟩
    · exact absurd (hpass a (hlegal a (List.mem_of_getLast? hlast))) hfail

end Sys2Proof.Proofs
end

section
/-! PROOFS. The laws of the point commands: EC_SMUL by 2, results on the curve, P + Q = Q + P, no missing inverse
on a prime N, and E·P in the group of the curve (44_ecc.md section 3). -/

namespace Sys2Proof.Proofs

open Sys2Proof Sys2Proof.Machine Sys2Proof.Claims

/-! ### EC_SMUL by 2 -/

/-- A completion with a point depends on its checks by the first error only (60_exceptions.md R204). -/
theorem completePoint_of_firstError {cs cs' : List Check} (h : firstError cs = firstError cs') (s : State)
    (v : Except CmdError (Nat × Nat)) : s.completePoint cs v = s.completePoint cs' v := by
  simp only [State.completePoint, h]

/-- With E ≥ 2 the checks of EC_SMUL report what those of EC_DBL do (R165, R167). -/
theorem firstError_smulChecks_eq_dblChecks {s : State} (he : 2 ≤ s.val .e) :
    firstError (smulChecks s) = firstError (dblChecks s) := by
  rw [smulChecks, dblChecks, firstError_checkOddMod, firstError_checkOddMod, firstError_checkScalar,
    if_neg (Nat.not_lt.mpr he)]

/-- Settles O56: the checks report the same, and the core is one doubling. -/
theorem scalarTwoIsDoubling : Obligations.ScalarTwoIsDoubling := by
  intro k k' s he
  rw [exec_ecSmul, exec_ecDbl, ← smulCore_eq_doubleAndAdd, he, smulCore_two,
    completePoint_of_firstError (firstError_smulChecks_eq_dblChecks he.ge)]

/-! ### when a point command succeeds -/

/-- A completion with a point that reports no error passed every check and returned the core's point
(60_exceptions.md R204). -/
theorem completePoint_success {s : State} {cs : List Check} {v : Except CmdError (Nat × Nat)}
    (hok : (s.completePoint cs v).error = false) :
    ∃ p, firstError cs = none ∧ v = .ok p ∧ s.completePoint cs v = s.returnPoint p := by
  rcases completePoint_cases s cs v with ⟨err, -, h⟩ | ⟨err, -, -, h⟩ | hsuccess
  · cases (congrArg State.error h).symm.trans hok
  · cases (congrArg State.error h).symm.trans hok
  · exact hsuccess

/-- The range checks passed where no error is reported, and so did the checks after them (R160). -/
theorem curveRange_of_firstError {s : State} {cs : List Check}
    (h : firstError (checkOddMod s 3 :: (curveChecks s ++ cs)) = none) :
    CurveRange s ∧ firstError cs = none := by
  rw [firstError_checkOddMod] at h
  split at h
  · next hn =>
    rw [firstError_curveChecks hn] at h
    split at h
    · next hr => exact ⟨hr, h⟩
    · cases h
  · cases h

/-- The check of P passed where no error is reported (R160). -/
theorem curveEq_of_firstError {s : State} {cs : List Check} (h : firstError (checkP s :: cs) = none) :
    CurveEq s (s.val .px) (s.val .py) ∧ firstError cs = none := by
  rw [firstError_checkP] at h
  split at h
  · next hp => exact ⟨hp, h⟩
  · cases h

/-- A passing check that an operand lies below N (R100). -/
theorem below_of_firstError {s : State} {r : Reg} {err : CmdError} {cs : List Check}
    (h : firstError (checkBelow s r err :: cs) = none) : s.val r < s.val .n ∧ firstError cs = none := by
  rw [firstError_checkBelow] at h
  split at h
  · cases h
  · next hr => exact ⟨Nat.not_le.mp hr, h⟩

/-- The checks of EC_DBL passed (R165). -/
theorem dblChecks_pass {s : State} (h : firstError (dblChecks s) = none) :
    CurveRange s ∧ CurveEq s (s.val .px) (s.val .py) := by
  obtain ⟨hr, h⟩ := curveRange_of_firstError h
  exact ⟨hr, (curveEq_of_firstError h).1⟩

/-- The checks of EC_ADD passed (R166). -/
theorem addChecks_pass {s : State} (h : firstError (addChecks s) = none) :
    CurveRange s ∧ QRange s ∧ CurveEq s (s.val .px) (s.val .py) ∧ CurveEq s (s.val .qx) (s.val .qy) := by
  obtain ⟨hr, h⟩ := curveRange_of_firstError h
  obtain ⟨hqx, h⟩ := below_of_firstError h
  obtain ⟨hqy, h⟩ := below_of_firstError h
  obtain ⟨hp, h⟩ := curveEq_of_firstError h
  refine ⟨hr, ⟨hqx, hqy⟩, hp, ?_⟩
  by_contra hq
  rw [firstError_checkQ, if_neg hq] at h
  cases h

/-- The checks of EC_SMUL passed (R167). -/
theorem smulChecks_pass {s : State} (h : firstError (smulChecks s) = none) :
    2 ≤ s.val .e ∧ CurveRange s ∧ CurveEq s (s.val .px) (s.val .py) := by
  have he : 2 ≤ s.val .e := by
    by_contra hlt
    rw [smulChecks, firstError_checkOddMod, firstError_checkScalar, if_pos (Nat.not_le.mp hlt)] at h
    split at h <;> cases h
  rw [firstError_smulChecks_eq_dblChecks he] at h
  exact ⟨he, dblChecks_pass h⟩

/-- EC_SMUL in terms of the machine's own loop (R167). -/
theorem exec_ecSmul_core (k : Nat) (s : State) :
    exec (.ecSmul k) s = .next (s.completePoint (smulChecks s)
      (smulCore (s.val .n) (s.val .ca) (s.val .e) s.pointP)) := rfl

/-! ### results on the curve -/

/-- The equation of the curve is what the machine tests (R161). -/
theorem curveEq_iff_onCurve (s : State) (x y : Nat) :
    CurveEq s x y ↔ onCurve (s.val .n) (s.val .ca) (s.val .cb) x y = true :=
  decide_eq_true_iff.symm

/-- A point the registers can stand for: below N and on the curve (44_ecc.md R160). -/
def ValidPoint (s : State) (p : Nat × Nat) : Prop :=
  p.1 < s.val .n ∧ p.2 < s.val .n ∧ CurveEq s p.1 p.2

/-- EC_DBL past its checks computes such a point (R169). -/
theorem dbl_validPoint {s : State} {p : Nat × Nat} (hpass : firstError (dblChecks s) = none)
    (hcore : dblCore (s.val .n) (s.val .ca) s.pointP = .ok p) : ValidPoint s p := by
  obtain ⟨hr, hp⟩ := dblChecks_pass hpass
  have hpos := modulus_pos hr.1
  obtain ⟨-, -, hx, hy, -⟩ := dblCore_ok hpos hcore
  exact ⟨hx, hy, (curveEq_iff_onCurve s _ _).mpr
    (dblCore_onCurve hpos hcore ((curveEq_iff_onCurve s _ _).mp hp))⟩

/-- EC_ADD past its checks computes such a point (R169). -/
theorem add_validPoint {s : State} {p : Nat × Nat} (hpass : firstError (addChecks s) = none)
    (hcore : addCore (s.val .n) s.pointP s.pointQ = .ok p) : ValidPoint s p := by
  obtain ⟨hr, -, hp, hq⟩ := addChecks_pass hpass
  have hpos := modulus_pos hr.1
  obtain ⟨-, -, hx, hy, -⟩ := addCore_ok hpos hcore
  exact ⟨hx, hy, (curveEq_iff_onCurve s _ _).mpr (addCore_onCurve hpos hcore
    ((curveEq_iff_onCurve s _ _).mp hp) ((curveEq_iff_onCurve s _ _).mp hq))⟩

/-- EC_SMUL past its checks computes such a point (R169). -/
theorem smul_validPoint {s : State} {p : Nat × Nat} (hpass : firstError (smulChecks s) = none)
    (hcore : smulCore (s.val .n) (s.val .ca) (s.val .e) s.pointP = .ok p) : ValidPoint s p := by
  obtain ⟨-, hr, hp⟩ := smulChecks_pass hpass
  have hpos := modulus_pos hr.1
  obtain ⟨-, -, -, hpx, hpy⟩ := hr
  obtain ⟨hx, hy⟩ := smulCore_lt hpos hcore ⟨hpx, hpy⟩
  exact ⟨hx, hy, (curveEq_iff_onCurve s _ _).mpr
    (smulCore_onCurve hpos hcore ((curveEq_iff_onCurve s _ _).mp hp))⟩

/-- RES0 and RES1 hold a returned point below N (10_state.md R40). -/
theorem returnPoint_val {s : State} {p : Nat × Nat} (hp : ValidPoint s p) :
    (s.returnPoint p).val .res0 = p.1 ∧ (s.returnPoint p).val .res1 = p.2 :=
  ⟨Nat.mod_eq_of_lt (hp.1.trans (val_lt s .n)), Nat.mod_eq_of_lt (hp.2.1.trans (val_lt s .n))⟩

/-- So a command whose core computes such points leaves one in RES0 and RES1. -/
theorem completePoint_validPoint {s : State} {cs : List Check} {v : Except CmdError (Nat × Nat)}
    (hcore : ∀ p, firstError cs = none → v = .ok p → ValidPoint s p)
    (hok : (s.completePoint cs v).error = false) :
    ValidPoint s ((s.completePoint cs v).val .res0, (s.completePoint cs v).val .res1) := by
  obtain ⟨p, hpass, hv, hreturn⟩ := completePoint_success hok
  have hp := hcore p hpass hv
  obtain ⟨h0, h1⟩ := returnPoint_val hp
  rw [hreturn, h0, h1]
  exact hp

/-- Settles O57, by the command: its core keeps the curve. -/
theorem pointResultsOnCurve : Obligations.PointResultsOnCurve := by
  intro i s t hwrites _ h hok
  cases i with
  | ecDbl k =>
    cases (exec_ecDbl k s).symm.trans h
    exact completePoint_validPoint (fun _ => dbl_validPoint) hok
  | ecAdd k =>
    cases (exec_ecAdd k s).symm.trans h
    exact completePoint_validPoint (fun _ => add_validPoint) hok
  | ecSmul k =>
    cases (exec_ecSmul_core k s).symm.trans h
    exact completePoint_validPoint (fun _ => smul_validPoint) hok
  | _ => cases hwrites

/-! ### P + Q = Q + P -/

/-- The register whose value each register holds once the points are exchanged. -/
def exchanged : Reg → Reg
  | .px => .qx
  | .py => .qy
  | .qx => .px
  | .qy => .py
  | r => r

/-- The values of the registers with the points exchanged. -/
theorem swapPoints_val (s : State) (r : Reg) : (swapPoints s).val r = s.val (exchanged r) := by
  simp only [State.val, swapPoints, setReg_reg]
  cases r <;> rfl

/-- The checks of EC_ADD pass with the points exchanged too (R166). -/
theorem addChecks_swapPoints {s : State} (h : firstError (addChecks s) = none) :
    firstError (addChecks (swapPoints s)) = none := by
  obtain ⟨⟨hn, hca, hcb, hpx, hpy⟩, ⟨hqx, hqy⟩, hp, hq⟩ := addChecks_pass h
  have hr : CurveRange (swapPoints s) := by
    simp only [CurveRange, OddMod, swapPoints_val, exchanged]
    exact ⟨hn, hca, hcb, hqx, hqy⟩
  have hqr : QRange (swapPoints s) := by
    simp only [QRange, swapPoints_val, exchanged]
    exact ⟨hpx, hpy⟩
  rw [firstError_addChecks_inRange hr hqr]
  simp only [CurveEq, swapPoints_val, exchanged]
  exact (if_pos hq).trans (if_pos hp)

/-- The core of EC_ADD answers the same point with the points exchanged (R169). -/
theorem addCore_swapPoints {s : State} {p : Nat × Nat} (hpos : 0 < s.val .n)
    (h : addCore (s.val .n) s.pointP s.pointQ = .ok p) :
    addCore ((swapPoints s).val .n) (swapPoints s).pointP (swapPoints s).pointQ = .ok p := by
  simp only [State.pointP, State.pointQ, swapPoints_val, exchanged]
  exact addCore_comm hpos h

/-- Settles O58: the checks are symmetric in the two points, and so is the core. -/
theorem pointAdditionCommutes : Obligations.PointAdditionCommutes := by
  intro k s t herr h hok
  cases (exec_ecAdd k s).symm.trans h
  obtain ⟨p, hpass, hcore, hreturn⟩ := completePoint_success hok
  obtain ⟨hr, -⟩ := addChecks_pass hpass
  have hu := exec_corePoint (exec_ecAdd k (swapPoints s)) (addChecks_swapPoints hpass)
    (addCore_swapPoints (modulus_pos hr.1) hcore)
  refine ⟨_, hu, ?_, ?_, ?_⟩
  · simp [pointResult, swapPoints, herr]
  · rw [hreturn]
    rfl
  · rw [hreturn]
    rfl

/-! ### NO_INVERSE on a prime N -/

/-- A completion with a point reports no NO_INVERSE where neither its checks nor its core do. -/
theorem completePoint_code_ne_one {s : State} {cs : List Check} {v : Except CmdError (Nat × Nat)}
    (herr : s.error = false) (hchecks : ∀ err ∈ cs.map Prod.snd, err.code ≠ 1)
    (hcore : ∀ err, firstError cs = none → v = .error err → err.code ≠ 1)
    (ht : (s.completePoint cs v).error = true) : (s.completePoint cs v).errCode ≠ 1 := by
  rcases completePoint_cases s cs v with ⟨err, hfirst, h⟩ | ⟨err, hpass, hv, h⟩ | ⟨p, -, -, h⟩
  · rw [h]
    exact hchecks err (firstError_mem hfirst)
  · rw [h]
    exact hcore err hpass hv
  · rw [h] at ht
    cases herr.symm.trans ht

/-- Settles O59: the checks report OUT_OF_RANGE or INVALID_POINT, and past them N is an odd prime, on which the
cores find every inverse. -/
theorem primeFieldNeverLacksInverse : Obligations.PrimeFieldNeverLacksInverse := by
  intro i s t hwrites hprime herr h ht
  cases i with
  | ecDbl k =>
    cases (exec_ecDbl k s).symm.trans h
    refine completePoint_code_ne_one herr ?_ (fun err hpass hv => ?_) ht
    · simp [dblChecks, checkOddMod, curveChecks, checkBelow, checkP, CmdError.code]
    · obtain ⟨⟨hn, -, -, -, hpy⟩, -⟩ := dblChecks_pass hpass
      rcases dblCore_error hv with rfl | rfl
      · decide
      · exact absurd hv (dblCore_prime hprime hn.1 hpy)
  | ecAdd k =>
    cases (exec_ecAdd k s).symm.trans h
    refine completePoint_code_ne_one herr ?_ (fun err hpass hv => ?_) ht
    · simp [addChecks, addPointChecks, checkOddMod, curveChecks, checkBelow, checkP, checkQ, CmdError.code]
    · obtain ⟨⟨-, -, -, hpx, -⟩, ⟨hqx, -⟩, -, -⟩ := addChecks_pass hpass
      rcases addCore_error hv with rfl | rfl | rfl
      · decide
      · decide
      · exact absurd hv (addCore_prime hprime hpx hqx)
  | ecSmul k =>
    cases (exec_ecSmul_core k s).symm.trans h
    refine completePoint_code_ne_one herr ?_ (fun err hpass hv => ?_) ht
    · simp [smulChecks, checkScalar, checkOddMod, curveChecks, checkBelow, checkP, CmdError.code]
    · obtain ⟨-, ⟨hn, -, -, hpx, hpy⟩, -⟩ := smulChecks_pass hpass
      rcases smulLoop_error hv with rfl | rfl | rfl | rfl
      · decide
      · exact absurd hv (smulLoop_prime hprime hn.1 hpx _ _ ⟨hpx, hpy⟩)
      · decide
      · decide
  | _ => cases hwrites

/-! ### E·P in the group -/

/-- Settles O60: past the checks the curve is one of R169, on which double-and-add is the multiple. -/
theorem scalarMultipleInGroup : Obligations.ScalarMultipleInGroup := by
  intro k s t hprime hdisc _ h hok
  cases (exec_ecSmul_core k s).symm.trans h
  obtain ⟨p, hpass, hcore, hreturn⟩ := completePoint_success hok
  obtain ⟨he, ⟨hn, hca, hcb, -, -⟩, hp⟩ := smulChecks_pass hpass
  obtain ⟨h0, h1⟩ := returnPoint_val (smul_validPoint hpass hcore)
  have hdomain : EllipticDomain s := ⟨hprime.out, hn.1, hca, hcb, hdisc⟩
  rw [hreturn, h0, h1]
  exact smulCore_group (W := groupCurve s) rfl rfl rfl rfl rfl
    (hdomain.discriminant rfl rfl rfl rfl rfl) (by omega) ((curveEq_iff_onCurve s _ _).mp hp) hcore

end Sys2Proof.Proofs
end
